-- ==== Sys2Proof/Word.lean ====
section
/-! DEFINITION. Word.lean: the fixed-width words of the CORE (`00_scope.md` R9, `30_encoding.md` R71).
Every value is unsigned (R12); a width is named once here and used everywhere by that name. -/

namespace Sys2Proof

/-- A byte of memory, a general register, a timer, an immediate `kk` (`10_state.md` R20, R37). -/
abbrev Byte := BitVec 8

/-- A 12-bit memory address: the program counter and the field `nnn` (`10_state.md` R24). -/
abbrev Addr := BitVec 12

/-- One 16-bit opcode (`30_encoding.md` R70). -/
abbrev Opcode := BitVec 16

/-- A nibble of an opcode: the fields `o`, `x`, `y`, `n` (`30_encoding.md` R71). -/
abbrev Nibble := BitVec 4

/-- The index of a general register, 0x0 to 0xF (`10_state.md` R20). -/
abbrev RegIdx := BitVec 4

/-- One of the 16 key codes (`40_step.md` R100). -/
abbrev Key := BitVec 4

/-- One row of the display: bit `k` is the pixel of column `k` (`10_state.md` R38). -/
abbrev Row := BitVec 64

/-- The index of VF, the flag register (`10_state.md` R21). -/
abbrev flagReg : RegIdx := 0xF#4

end Sys2Proof
end

