-- ==== Sys2Proof/Config.lean ====
section
/-! DEFINITION. Config.lean: what an implementation fixes (the parameters of `00_scope.md` R10) and the free
values of the model (the inputs of a step whose sample the host has not laid out, `40_step.md` R100). -/

namespace Sys2Proof

/-- Which register 8xy6 and 8xyE shift: `V[x]` or `V[y]` (`00_scope.md` R10, `43_alu.md` R149). -/
inductive ShiftSource where
  | x
  | y
deriving DecidableEq, Repr

/-- The named parameters of `00_scope.md` R10 that are no input. A machine holds one value of them for ever
(log 1). DESIGN CHOICE, safe: they stand in the state, so that a statement about every state holds for all. -/
structure Params where
  /-- `FONT`: the 80 bytes at 0x020 to 0x06F after reset (`10_state.md` R37). -/
  font : Vector Byte 80
  /-- `KEY_ORDER`: the order in which a key wait looks for a held key (`40_step.md` R101). -/
  keyOrder : List Key
  /-- `SHIFT_SOURCE`: the register that 8xy6 and 8xyE shift (`43_alu.md` R149, R151). -/
  shiftSource : ShiftSource
  /-- `TIMER_PERIOD`: committed steps per timer decrement (`60_exceptions.md` R241). -/
  timerPeriod : Nat
deriving DecidableEq, Repr

/-- The inputs of one step request, sampled once (`40_step.md` R100). -/
structure StepInput where
  /-- Bit `k` is 1 when key `k` is held. -/
  keys : BitVec 16
  /-- The random byte that Cxkk reads. -/
  rand : Byte
deriving DecidableEq, Repr

/-- FREE VALUE (log 3, safe). The key sample of the `n`-th step request when the state holds none laid out by the
host. No body: nothing can be proved of its value (`40_step.md` R100). -/
opaque Config.freeKeys : Nat → BitVec 16

/-- FREE VALUE (log 3, safe). The random byte of the `n`-th step request when the state holds none laid out by the
host. The spec places no law on `rand` (`40_step.md` R100, `60_exceptions.md` R247). -/
opaque Config.freeRand : Nat → Byte

end Sys2Proof
end

