-- ==== Sys2Proof/Syntax.lean ====
section
/-! DEFINITION. Syntax.lean: the 34 instructions of the opcode map (`30_encoding.md` R75), one constructor per row
of spec/opcode_table.json. A constructor holds exactly the free fields of its pattern (R71, R73). -/

namespace Sys2Proof

/-- The instructions. The docstring of each constructor gives its pattern and the rule that gives its meaning. -/
inductive Instr where
  /-- `00E0`: clear the display (`46_display.md` R201). -/
  | cls
  /-- `00EE`: return from subroutine (`41_control_flow.md` R113). -/
  | ret
  /-- `1nnn`: jump (`41_control_flow.md` R114). -/
  | jp (nnn : Addr)
  /-- `2nnn`: call subroutine (`41_control_flow.md` R115). -/
  | call (nnn : Addr)
  /-- `3xkk`: skip if `V[x] = kk` (`42_skips.md` R131). -/
  | seImm (x : RegIdx) (kk : Byte)
  /-- `4xkk`: skip if `V[x] != kk` (`42_skips.md` R132). -/
  | sneImm (x : RegIdx) (kk : Byte)
  /-- `5xy0`: skip if `V[x] = V[y]` (`42_skips.md` R133). -/
  | seReg (x y : RegIdx)
  /-- `6xkk`: load immediate (`43_alu.md` R141). -/
  | ldImm (x : RegIdx) (kk : Byte)
  /-- `7xkk`: add immediate, without flag (`43_alu.md` R142). -/
  | addImm (x : RegIdx) (kk : Byte)
  /-- `8xy0`: copy register (`43_alu.md` R143). -/
  | ldReg (x y : RegIdx)
  /-- `8xy1`: bitwise OR (`43_alu.md` R144). -/
  | orReg (x y : RegIdx)
  /-- `8xy2`: bitwise AND (`43_alu.md` R145). -/
  | andReg (x y : RegIdx)
  /-- `8xy3`: bitwise XOR (`43_alu.md` R146). -/
  | xorReg (x y : RegIdx)
  /-- `8xy4`: add registers, with carry (`43_alu.md` R147). -/
  | addReg (x y : RegIdx)
  /-- `8xy5`: subtract, with not-borrow (`43_alu.md` R148). -/
  | subReg (x y : RegIdx)
  /-- `8xy6`: shift right by one (`43_alu.md` R149). -/
  | shrReg (x y : RegIdx)
  /-- `8xy7`: reverse subtract, with not-borrow (`43_alu.md` R150). -/
  | subnReg (x y : RegIdx)
  /-- `8xyE`: shift left by one (`43_alu.md` R151). -/
  | shlReg (x y : RegIdx)
  /-- `9xy0`: skip if `V[x] != V[y]` (`42_skips.md` R134). -/
  | sneReg (x y : RegIdx)
  /-- `Annn`: load I (`44_index_memory.md` R171). -/
  | ldI (nnn : Addr)
  /-- `Bnnn`: jump, without adding V0 (`41_control_flow.md` R116). -/
  | jpb (nnn : Addr)
  /-- `Cxkk`: random byte AND immediate (`43_alu.md` R152). -/
  | rnd (x : RegIdx) (kk : Byte)
  /-- `Dxyn`: draw an `n`-row sprite by XOR (`46_display.md` R202). -/
  | drw (x y : RegIdx) (n : Nibble)
  /-- `Ex9E`: skip if the key numbered `V[x]` is held (`42_skips.md` R135). -/
  | skp (x : RegIdx)
  /-- `ExA1`: skip if the key numbered `V[x]` is not held (`42_skips.md` R136). -/
  | sknp (x : RegIdx)
  /-- `Fx07`: read the delay timer (`45_timers_keys.md` R191). -/
  | ldFromDt (x : RegIdx)
  /-- `Fx0A`: wait for a key, and store it (`45_timers_keys.md` R192). -/
  | ldKey (x : RegIdx)
  /-- `Fx15`: set the delay timer (`45_timers_keys.md` R193). -/
  | ldToDt (x : RegIdx)
  /-- `Fx18`: set the sound timer (`45_timers_keys.md` R194). -/
  | ldToSt (x : RegIdx)
  /-- `Fx1E`: add register to I (`44_index_memory.md` R172). -/
  | addI (x : RegIdx)
  /-- `Fx29`: point I at the font glyph for `V[x]` (`44_index_memory.md` R173). -/
  | ldFont (x : RegIdx)
  /-- `Fx33`: store the decimal digits of `V[x]` (`44_index_memory.md` R174). -/
  | bcd (x : RegIdx)
  /-- `Fx55`: store V0 to V[x] at I (`44_index_memory.md` R175). -/
  | storeRegs (x : RegIdx)
  /-- `Fx65`: load V0 to V[x] from I (`44_index_memory.md` R176). -/
  | loadRegs (x : RegIdx)
deriving DecidableEq, Repr

end Sys2Proof
end

