-- ==== Sys2Proof/WellFormed.lean ====
section
/-! DEFINITION. WellFormed.lean: which words are legal, which parameters a machine may have, and why every term of
`Instr` is well formed.

The fields of an instruction have the exact widths of `30_encoding.md` R71, so a term of `Instr` cannot hold a field
out of range. What can be ill-formed is a 16-bit word (it may match no row of the opcode map, R75, R77) and a
parameter record (`00_scope.md` R10). -/

namespace Sys2Proof

/-- One row of the opcode map: a word `op` is of the row when `op & mask = value` (`30_encoding.md` R75). -/
structure OpcodeRow where
  mnemonic : String
  value : Opcode
  mask : Opcode
deriving DecidableEq, Repr

/-- `op & mask = match` (`30_encoding.md` R75). -/
def OpcodeRow.covers (r : OpcodeRow) (op : Opcode) : Bool :=
  op &&& r.mask == r.value

/-- The rows whose pattern fixes the whole word, or whose primary nibble alone selects them (`30_encoding.md` R75). -/
def opcodeMapPlain : List OpcodeRow :=
  [⟨"00E0", 0x00E0, 0xFFFF⟩, ⟨"00EE", 0x00EE, 0xFFFF⟩,
   ⟨"1nnn", 0x1000, 0xF000⟩, ⟨"2nnn", 0x2000, 0xF000⟩,
   ⟨"3xkk", 0x3000, 0xF000⟩, ⟨"4xkk", 0x4000, 0xF000⟩,
   ⟨"6xkk", 0x6000, 0xF000⟩, ⟨"7xkk", 0x7000, 0xF000⟩,
   ⟨"Annn", 0xA000, 0xF000⟩, ⟨"Bnnn", 0xB000, 0xF000⟩,
   ⟨"Cxkk", 0xC000, 0xF000⟩, ⟨"Dxyn", 0xD000, 0xF000⟩]

/-- The rows with a secondary nibble (`30_encoding.md` R75; the nibbles of the 8 family by R76). -/
def opcodeMapNibble : List OpcodeRow :=
  [⟨"5xy0", 0x5000, 0xF00F⟩, ⟨"8xy0", 0x8000, 0xF00F⟩, ⟨"8xy1", 0x8001, 0xF00F⟩,
   ⟨"8xy2", 0x8002, 0xF00F⟩, ⟨"8xy3", 0x8003, 0xF00F⟩, ⟨"8xy4", 0x8004, 0xF00F⟩,
   ⟨"8xy5", 0x8005, 0xF00F⟩, ⟨"8xy6", 0x8006, 0xF00F⟩, ⟨"8xy7", 0x8007, 0xF00F⟩,
   ⟨"8xyE", 0x800E, 0xF00F⟩, ⟨"9xy0", 0x9000, 0xF00F⟩]

/-- The rows with a secondary byte (`30_encoding.md` R75). -/
def opcodeMapByte : List OpcodeRow :=
  [⟨"Ex9E", 0xE09E, 0xF0FF⟩, ⟨"ExA1", 0xE0A1, 0xF0FF⟩, ⟨"Fx07", 0xF007, 0xF0FF⟩,
   ⟨"Fx0A", 0xF00A, 0xF0FF⟩, ⟨"Fx15", 0xF015, 0xF0FF⟩, ⟨"Fx18", 0xF018, 0xF0FF⟩,
   ⟨"Fx1E", 0xF01E, 0xF0FF⟩, ⟨"Fx29", 0xF029, 0xF0FF⟩, ⟨"Fx33", 0xF033, 0xF0FF⟩,
   ⟨"Fx55", 0xF055, 0xF0FF⟩, ⟨"Fx65", 0xF065, 0xF0FF⟩]

/-- The complete opcode map, 34 rows (`30_encoding.md` R75). -/
def opcodeMap : List OpcodeRow :=
  opcodeMapPlain ++ (opcodeMapNibble ++ opcodeMapByte)

/-- A word is legal when some row of the opcode map covers it; every other word is illegal (`30_encoding.md` R77). -/
def Opcode.legal (op : Opcode) : Bool :=
  opcodeMap.any (·.covers op)

/-- Every instruction is well formed: each field has exactly the width its pattern gives it, and every value of a
free field is an instruction (`30_encoding.md` R71, R73, R79). -/
def Instr.wellFormed : Instr → Bool
  | .cls | .ret | .jp _ | .call _ | .ldI _ | .jpb _ => true
  | .seImm _ _ | .sneImm _ _ | .ldImm _ _ | .addImm _ _ | .rnd _ _ => true
  | .seReg _ _ | .sneReg _ _ | .ldReg _ _ | .orReg _ _ | .andReg _ _ | .xorReg _ _ => true
  | .addReg _ _ | .subReg _ _ | .shrReg _ _ | .subnReg _ _ | .shlReg _ _ | .drw _ _ _ => true
  | .skp _ | .sknp _ | .ldFromDt _ | .ldKey _ | .ldToDt _ | .ldToSt _ => true
  | .addI _ | .ldFont _ | .bcd _ | .storeRegs _ | .loadRegs _ => true

/-- The 16 key codes in ascending order (`40_step.md` R100). -/
def allKeys : List Key :=
  [0x0, 0x1, 0x2, 0x3, 0x4, 0x5, 0x6, 0x7, 0x8, 0x9, 0xA, 0xB, 0xC, 0xD, 0xE, 0xF]

/-- `TIMER_PERIOD` is a positive integer (`00_scope.md` R10). -/
def Params.periodOk (p : Params) : Bool :=
  decide (0 < p.timerPeriod)

/-- `KEY_ORDER` is a permutation of the 16 key codes (`00_scope.md` R10, `40_step.md` R101). -/
def Params.keyOrderOk (p : Params) : Bool :=
  p.keyOrder.length == 16 && allKeys.all (p.keyOrder.contains ·)

/-- Glyph A of `FONT` is fixed by the source: F0 90 F0 90 90 at 0x052 (`10_state.md` R37, D8). -/
def Params.glyphAOk (p : Params) : Bool :=
  p.font[50] == 0xF0 && p.font[51] == 0x90 && p.font[52] == 0xF0 && p.font[53] == 0x90 && p.font[54] == 0x90

/-- The parameters a machine may have (`00_scope.md` R10). -/
def Params.wf (p : Params) : Bool :=
  p.periodOk && p.keyOrderOk && p.glyphAOk

end Sys2Proof
end

