-- ==== Sys2Proof/Decode.lean ====
section
/-! DEFINITION. Decode.lean: the decoder and the encoder, both written from the patterns of `30_encoding.md` R75.
The decoder is total: it dispatches on the top nibble and, for the families 0, 5, 8, 9, E and F, on a secondary nibble
or byte (R74), and every word of no row is refused (R77, R78). -/

namespace Sys2Proof

/-! ### The fields of an opcode (`30_encoding.md` R71) -/

/-- `o = op[15:12]`. -/
def Opcode.o (op : Opcode) : Nibble := op.extractLsb' 12 4
/-- `x = op[11:8]`. -/
def Opcode.x (op : Opcode) : RegIdx := op.extractLsb' 8 4
/-- `y = op[7:4]`. -/
def Opcode.y (op : Opcode) : RegIdx := op.extractLsb' 4 4
/-- `n = op[3:0]`. -/
def Opcode.n (op : Opcode) : Nibble := op.extractLsb' 0 4
/-- `kk = op[7:0]`. -/
def Opcode.kk (op : Opcode) : Byte := op.extractLsb' 0 8
/-- `nnn = op[11:0]`. -/
def Opcode.nnn (op : Opcode) : Addr := op.extractLsb' 0 12

/-- The high byte, stored at the lower address (`20_memory.md` R53). -/
def Opcode.hi (op : Opcode) : Byte := op.extractLsb' 8 8
/-- The low byte. -/
def Opcode.lo (op : Opcode) : Byte := op.extractLsb' 0 8

/-! ### The decoder -/

/-- Family 8: the secondary nibble (`30_encoding.md` R75, R76). -/
def decode8 (x y : RegIdx) (n : Nibble) : Option Instr :=
  match n with
  | 0x0#4 => some (.ldReg x y)
  | 0x1#4 => some (.orReg x y)
  | 0x2#4 => some (.andReg x y)
  | 0x3#4 => some (.xorReg x y)
  | 0x4#4 => some (.addReg x y)
  | 0x5#4 => some (.subReg x y)
  | 0x6#4 => some (.shrReg x y)
  | 0x7#4 => some (.subnReg x y)
  | 0xE#4 => some (.shlReg x y)
  | _ => none

/-- Family F: the secondary byte (`30_encoding.md` R75). -/
def decodeF (x : RegIdx) (kk : Byte) : Option Instr :=
  match kk with
  | 0x07#8 => some (.ldFromDt x)
  | 0x0A#8 => some (.ldKey x)
  | 0x15#8 => some (.ldToDt x)
  | 0x18#8 => some (.ldToSt x)
  | 0x1E#8 => some (.addI x)
  | 0x29#8 => some (.ldFont x)
  | 0x33#8 => some (.bcd x)
  | 0x55#8 => some (.storeRegs x)
  | 0x65#8 => some (.loadRegs x)
  | _ => none

/-- The decoder on one word: the row of `30_encoding.md` R75 that covers it, or none (R77). -/
def decodeWord (op : Opcode) : Option Instr :=
  match op.o with
  | 0x0#4 => if op = 0x00E0#16 then some .cls else if op = 0x00EE#16 then some .ret else none
  | 0x1#4 => some (.jp op.nnn)
  | 0x2#4 => some (.call op.nnn)
  | 0x3#4 => some (.seImm op.x op.kk)
  | 0x4#4 => some (.sneImm op.x op.kk)
  | 0x5#4 => if op.n = 0#4 then some (.seReg op.x op.y) else none
  | 0x6#4 => some (.ldImm op.x op.kk)
  | 0x7#4 => some (.addImm op.x op.kk)
  | 0x8#4 => decode8 op.x op.y op.n
  | 0x9#4 => if op.n = 0#4 then some (.sneReg op.x op.y) else none
  | 0xA#4 => some (.ldI op.nnn)
  | 0xB#4 => some (.jpb op.nnn)
  | 0xC#4 => some (.rnd op.x op.kk)
  | 0xD#4 => some (.drw op.x op.y op.n)
  | 0xE#4 => if op.kk = 0x9E#8 then some (.skp op.x) else if op.kk = 0xA1#8 then some (.sknp op.x) else none
  | 0xF#4 => decodeF op.x op.kk
  | _ => none

/-- Why bytes are no instruction. -/
inductive DecodeError where
  /-- Fewer than two bytes are left: the second opcode byte lies outside memory (`40_step.md` R91). -/
  | truncated
  /-- The word matches no row of the opcode map (`30_encoding.md` R77). -/
  | unknownOpcode
deriving DecidableEq, Repr

/-- The decoder on bytes as memory holds them, high byte first (`20_memory.md` R53): the instruction and the bytes
after it, or why there is none. -/
def decode : List Byte → Except DecodeError (Instr × List Byte)
  | hi :: lo :: rest =>
    match decodeWord (hi ++ lo) with
    | some i => .ok (i, rest)
    | none => .error .unknownOpcode
  | _ => .error .truncated

/-! ### The encoder -/

/-- The word of an instruction: the fixed bits of its pattern and its fields (`30_encoding.md` R72, R75). -/
def encode : Instr → Opcode
  | .cls => 0x00E0#16
  | .ret => 0x00EE#16
  | .jp nnn => 0x1#4 ++ nnn
  | .call nnn => 0x2#4 ++ nnn
  | .seImm x kk => 0x3#4 ++ x ++ kk
  | .sneImm x kk => 0x4#4 ++ x ++ kk
  | .seReg x y => 0x5#4 ++ x ++ y ++ 0x0#4
  | .ldImm x kk => 0x6#4 ++ x ++ kk
  | .addImm x kk => 0x7#4 ++ x ++ kk
  | .ldReg x y => 0x8#4 ++ x ++ y ++ 0x0#4
  | .orReg x y => 0x8#4 ++ x ++ y ++ 0x1#4
  | .andReg x y => 0x8#4 ++ x ++ y ++ 0x2#4
  | .xorReg x y => 0x8#4 ++ x ++ y ++ 0x3#4
  | .addReg x y => 0x8#4 ++ x ++ y ++ 0x4#4
  | .subReg x y => 0x8#4 ++ x ++ y ++ 0x5#4
  | .shrReg x y => 0x8#4 ++ x ++ y ++ 0x6#4
  | .subnReg x y => 0x8#4 ++ x ++ y ++ 0x7#4
  | .shlReg x y => 0x8#4 ++ x ++ y ++ 0xE#4
  | .sneReg x y => 0x9#4 ++ x ++ y ++ 0x0#4
  | .ldI nnn => 0xA#4 ++ nnn
  | .jpb nnn => 0xB#4 ++ nnn
  | .rnd x kk => 0xC#4 ++ x ++ kk
  | .drw x y n => 0xD#4 ++ x ++ y ++ n
  | .skp x => 0xE#4 ++ x ++ 0x9E#8
  | .sknp x => 0xE#4 ++ x ++ 0xA1#8
  | .ldFromDt x => 0xF#4 ++ x ++ 0x07#8
  | .ldKey x => 0xF#4 ++ x ++ 0x0A#8
  | .ldToDt x => 0xF#4 ++ x ++ 0x15#8
  | .ldToSt x => 0xF#4 ++ x ++ 0x18#8
  | .addI x => 0xF#4 ++ x ++ 0x1E#8
  | .ldFont x => 0xF#4 ++ x ++ 0x29#8
  | .bcd x => 0xF#4 ++ x ++ 0x33#8
  | .storeRegs x => 0xF#4 ++ x ++ 0x55#8
  | .loadRegs x => 0xF#4 ++ x ++ 0x65#8

/-- The bytes of an instruction as memory holds them (`20_memory.md` R53). -/
def encodeBytes (i : Instr) : List Byte :=
  [(encode i).hi, (encode i).lo]

/-- The name of an instruction's row in the opcode map (`30_encoding.md` R75, R80). -/
def Instr.mnemonic : Instr → String
  | .cls => "00E0" | .ret => "00EE" | .jp _ => "1nnn" | .call _ => "2nnn"
  | .seImm _ _ => "3xkk" | .sneImm _ _ => "4xkk" | .seReg _ _ => "5xy0"
  | .ldImm _ _ => "6xkk" | .addImm _ _ => "7xkk"
  | .ldReg _ _ => "8xy0" | .orReg _ _ => "8xy1" | .andReg _ _ => "8xy2" | .xorReg _ _ => "8xy3"
  | .addReg _ _ => "8xy4" | .subReg _ _ => "8xy5" | .shrReg _ _ => "8xy6" | .subnReg _ _ => "8xy7"
  | .shlReg _ _ => "8xyE" | .sneReg _ _ => "9xy0" | .ldI _ => "Annn" | .jpb _ => "Bnnn"
  | .rnd _ _ => "Cxkk" | .drw _ _ _ => "Dxyn" | .skp _ => "Ex9E" | .sknp _ => "ExA1"
  | .ldFromDt _ => "Fx07" | .ldKey _ => "Fx0A" | .ldToDt _ => "Fx15" | .ldToSt _ => "Fx18"
  | .addI _ => "Fx1E" | .ldFont _ => "Fx29" | .bcd _ => "Fx33" | .storeRegs _ => "Fx55" | .loadRegs _ => "Fx65"

/-- The host's question: the instruction whose bits, numbered as spec/opcode_table.json numbers them, are `w`. The
word is laid out high byte first, as memory holds it, and given to `decode`. -/
def decodeTableWord (nbits w : Nat) : Option Instr :=
  let op := BitVec.ofNat 16 (w % 2 ^ nbits)
  match decode [Opcode.hi op, Opcode.lo op] with
  | .ok (i, _) => some i
  | .error _ => none

end Sys2Proof
end

