-- ==== Sys2Proof/Machine/Defaults.lean ====
section
/-! DEFINITION. Machine/Defaults.lean: the defaults of the parameters of `00_scope.md` R10, and what a byte of memory
that nothing has written reads as (`10_state.md` R41). -/

namespace Sys2Proof.Machine

/-- Glyphs 0 to 7 of the default `FONT` (`10_state.md` R37). PRESUMED, unsafe (log 2): the spec takes these bytes
from general knowledge. -/
def fontLow : List Byte :=
  [0xF0, 0x90, 0x90, 0x90, 0xF0, 0x20, 0x60, 0x20, 0x20, 0x70,
   0xF0, 0x10, 0xF0, 0x80, 0xF0, 0xF0, 0x10, 0xF0, 0x10, 0xF0,
   0x90, 0x90, 0xF0, 0x10, 0x10, 0xF0, 0x80, 0xF0, 0x10, 0xF0,
   0xF0, 0x80, 0xF0, 0x90, 0xF0, 0xF0, 0x10, 0x20, 0x40, 0x40]

/-- Glyphs 8 to F of the default `FONT` (`10_state.md` R37). Glyph A, the third, is the source's; the others are
PRESUMED, unsafe (log 2). -/
def fontHigh : List Byte :=
  [0xF0, 0x90, 0xF0, 0x90, 0xF0, 0xF0, 0x90, 0xF0, 0x10, 0xF0,
   0xF0, 0x90, 0xF0, 0x90, 0x90, 0xE0, 0x90, 0xE0, 0x90, 0xE0,
   0xF0, 0x80, 0x80, 0x80, 0xF0, 0xE0, 0x90, 0x90, 0x90, 0xE0,
   0xF0, 0x80, 0xF0, 0x80, 0xF0, 0xF0, 0x80, 0xF0, 0x80, 0x80]

/-- The default `FONT` (`10_state.md` R37). -/
def defaultFont : Vector Byte 80 :=
  ⟨(fontLow ++ fontHigh).toArray, rfl⟩

/-- The defaults of `00_scope.md` R10: the font of R37, ascending keys, `V[x]` shifted, a period of 8. -/
def defaultParams : Params where
  font := defaultFont
  keyOrder := allKeys
  shiftSource := .x
  timerPeriod := 8

/-- How many bytes main memory has (`20_memory.md` R50). -/
abbrev memSize : Nat := 4096

/-- The first byte of the font (`10_state.md` R37). -/
abbrev fontBase : Nat := 0x020

/-- The first byte past the font (`20_memory.md` R51). -/
abbrev fontEnd : Nat := 0x070

/-- The first byte that is not reserved, and the reset value of PC (`20_memory.md` R51). -/
abbrev programBase : Nat := 0x200

/-- What byte `a` of memory holds after reset, and so what an unlisted address reads as: `FONT` at 0x020 to 0x06F,
0 everywhere else (`10_state.md` R41). -/
def resetByte (p : Params) (a : Nat) : Byte :=
  if fontBase ≤ a ∧ a < fontEnd then p.font[a - fontBase]?.getD 0 else 0

end Sys2Proof.Machine
end

