-- ==== Sys2Proof/Machine/Memory.lean ====
section
/-! DEFINITION. Machine/Memory.lean: main memory as a list of cells in one canonical form, and its two operations.

`d` is what an unlisted address reads as (`resetByte`). The canonical form: addresses strictly rising, each inside
memory, and no cell that holds what its address reads as unlisted. -/

namespace Sys2Proof.Machine

/-- Memory: the bytes that differ from the reset contents, by rising address (log 18). -/
abbrev Memory := List Host.Cell

/-- The byte at address `a`. -/
def Memory.read (d : Nat → Byte) : Memory → Nat → Byte
  | [], a => d a
  | c :: m, a => if c.1 = a then c.2 else Memory.read d m a

/-- `m` with no cell at address `a`. -/
def Memory.drop (m : Memory) (a : Nat) : Memory :=
  m.filter (fun c => c.1 ≠ a)

/-- `m` with a cell for `a` put before the first greater address. -/
def Memory.place (a : Nat) (b : Byte) : Memory → Memory
  | [] => [(a, b)]
  | c :: m => if c.1 < a then c :: Memory.place a b m else (a, b) :: c :: m

/-- Byte `b` written at address `a`. Writing what the address reads as unlisted removes its cell. -/
def Memory.write (d : Nat → Byte) (m : Memory) (a : Nat) (b : Byte) : Memory :=
  if b = d a then Memory.drop m a else Memory.place a b (Memory.drop m a)

/-- The canonical form. -/
abbrev Memory.wf (d : Nat → Byte) (m : Memory) : Prop :=
  List.Pairwise (fun p q : Host.Cell => p.1 < q.1) m ∧ ∀ c ∈ m, c.1 < memSize ∧ c.2 ≠ d c.1

end Sys2Proof.Machine
end

