-- ==== Sys2Proof/Machine/State.lean ====
section
/-! DEFINITION. Machine/State.lean: everything the spec gives the machine, as plain data, with its state after reset
(`10_state.md` R41, `70_reset_and_hazards.md` R260), and the ways a step can stop. -/

namespace Sys2Proof.Machine

/-- The fault codes (`60_exceptions.md` R221), NONE included. -/
inductive FaultCode where
  /-- 0: no fault. -/
  | none
  /-- 1: the opcode matches no row of the opcode map. -/
  | unknownOpcode
  /-- 2: push with SP = 32. -/
  | stackOverflow
  /-- 3: pop with SP = 0. -/
  | stackUnderflow
  /-- 4: jump or call target below 0x200. -/
  | reservedTarget
  /-- 5: indexed write with I below 0x200. -/
  | reservedWrite
  /-- 6: an access above 0xFFF. -/
  | memRange
  /-- 7: a next PC or return address above 0xFFF. -/
  | pcRange
  /-- 8: `I + V[x]` above 0xFFFF. -/
  | indexOverflow
  /-- 9: a key code above 0xF. -/
  | keyRange
  /-- 10: a sprite row above 31. -/
  | displayRange
deriving DecidableEq, Repr

/-- What the `result` port gives for a step request (`40_step.md` R99). -/
inductive StepResult where
  /-- The step committed. -/
  | ok
  /-- This step faulted, and the machine is now halted. -/
  | fault (code : FaultCode)
  /-- The machine was already halted. -/
  | halted (code : FaultCode)
deriving DecidableEq, Repr

/-- Every piece of state the spec gives the machine, the parameters it holds for ever, and the model's own fields for
its ports. -/
structure State where
  /-- V0 to VF (`10_state.md` R20). -/
  v : Vector Byte 16
  /-- PC, the address of the next instruction (`10_state.md` R24). -/
  pc : Addr
  /-- I, the index register (`10_state.md` R30). -/
  i : BitVec 16
  /-- SP, the address of the next free stack slot (`10_state.md` R31). -/
  sp : BitVec 6
  /-- DT, the delay timer (`10_state.md` R32). -/
  dt : Byte
  /-- ST, the sound timer (`10_state.md` R33). -/
  st : Byte
  /-- TDIV, the timer divider (`10_state.md` R34). -/
  tdiv : Nat
  /-- Main memory (`10_state.md` R37), the call stack in its low 32 bytes (`41_control_flow.md` R110). -/
  mem : Memory
  /-- The display buffer, row 0 first (`10_state.md` R38). -/
  disp : Vector Row 32
  /-- HALTED (`10_state.md` R36). -/
  halted : Bool
  /-- FAULT_CODE (`10_state.md` R36). -/
  faultCode : FaultCode
  /-- FAULT_PC (`10_state.md` R36). -/
  faultPc : Addr
  /-- FAULT_OPCODE (`10_state.md` R36). -/
  faultOpcode : Opcode
  /-- The parameters of `00_scope.md` R10 but for the inputs; no step changes them (log 1). -/
  params : Params
  /-- The model's own: the samples the host has laid out for the coming step requests, the next one first (log 3). -/
  inputs : List StepInput
  /-- The model's own: the step requests served so far, which index the free input values (log 4). -/
  requests : Nat
  /-- The model's own: the `result` port for the last step request; `none` before the first (log 5). -/
  result : Option StepResult
  /-- The model's own: whether the last transaction presented the display buffer on the `draw` port (log 5). -/
  drawOut : Bool
  /-- The model's own: whether a program load is still allowed (`70_reset_and_hazards.md` R263, log 5). -/
  loadOpen : Bool
deriving DecidableEq, Repr

/-- Why a step stops with no next state. The fatal faults of `60_exceptions.md` are NOT here: their entry is a next
state (R222, log 6). -/
inductive Fault where
  /-- Raised by 00EE alone, when SP is 1: the pop would read address -1, which does not exist. SP is always even
  (`10_state.md` R31), so no run from reset reaches it. Safe (log 9). -/
  | popBelowZero
deriving DecidableEq, Repr

/-- Why a request is not accepted. -/
inductive Refusal where
  /-- An instruction that has no meaning yet, by its mnemonic. Raised by no arm of `exec` now. Safe. -/
  | notModelled (mnemonic : String)
  /-- Raised by the host's load of an image of more than 3584 bytes (`70_reset_and_hazards.md` R263). Safe. -/
  | imageTooLong
  /-- Raised by a load that comes after a load or after a step (`70_reset_and_hazards.md` R263). Safe. -/
  | loadClosed
deriving DecidableEq, Repr

/-- The machine after reset, for any parameters (`10_state.md` R41). The model's own fields: no sample laid out, no
request served, no result yet, the blank buffer presented once (`70_reset_and_hazards.md` R260), a load allowed. -/
def State.resetWith (p : Params) : State where
  v := Vector.replicate 16 0
  pc := 0x200
  i := 0
  sp := 0
  dt := 0
  st := 0
  tdiv := 0
  mem := []
  disp := Vector.replicate 32 0
  halted := false
  faultCode := .none
  faultPc := 0
  faultOpcode := 0
  params := p
  inputs := []
  requests := 0
  result := none
  drawOut := true
  loadOpen := true

/-- The machine after reset with the default parameters (`10_state.md` R41, `00_scope.md` R10, log 2). -/
def State.reset : State := State.resetWith defaultParams

end Sys2Proof.Machine
end

