-- ==== Sys2Proof/Machine/Ops.lean ====
section
/-! DEFINITION. Machine/Ops.lean: the named operations over registers, memory, stack and display; taking a fault; the
timer writeback; the commit of a step; fetching. The meanings are written over these. -/

namespace Sys2Proof.Machine

/-! ### Registers (`00_scope.md` R13) -/

/-- `V[x]`. -/
def State.reg (s : State) (x : RegIdx) : Byte := s.v[x.toNat]'x.isLt

/-- `V[x] <- b`. -/
def State.setReg (s : State) (x : RegIdx) (b : Byte) : State := { s with v := s.v.set x.toNat b x.isLt }

/-- `PC <- a`. -/
def State.setPc (s : State) (a : Addr) : State := { s with pc := a }

/-- `I <- w`. -/
def State.setI (s : State) (w : BitVec 16) : State := { s with i := w }

/-- `SP <- w`. -/
def State.setSp (s : State) (w : BitVec 6) : State := { s with sp := w }

/-- `DT <- b`. -/
def State.setDt (s : State) (b : Byte) : State := { s with dt := b }

/-- `ST <- b`. -/
def State.setSt (s : State) (b : Byte) : State := { s with st := b }

/-! ### Memory (`20_memory.md` R50, R53) -/

/-- `MemRead(a, 1)`. The caller checks the range (`20_memory.md` R56). -/
def State.byte (s : State) (a : Nat) : Byte := Memory.read (resetByte s.params) s.mem a

/-- `MemWrite(a, 1, b)`. The caller checks the range (`20_memory.md` R56). -/
def State.setByte (s : State) (a : Nat) (b : Byte) : State :=
  { s with mem := Memory.write (resetByte s.params) s.mem a b }

/-- `MemRead(a, 2)`: big-endian (`20_memory.md` R53). -/
def State.half (s : State) (a : Nat) : BitVec 16 := s.byte a ++ s.byte (a + 1)

/-- Two bytes written big-endian (`20_memory.md` R53). -/
def State.setHalf (s : State) (a : Nat) (w : BitVec 16) : State :=
  (s.setByte a (w.extractLsb' 8 8)).setByte (a + 1) (w.extractLsb' 0 8)

/-- `k` registers from V0 on stored at `a`, `a + 1`, … in rising order (`44_index_memory.md` R175). -/
def State.storeFrom (s : State) (a : Nat) : Nat → State
  | 0 => s
  | k + 1 => (State.storeFrom s a k).setByte (a + k) (s.reg (BitVec.ofNat 4 k))

/-- `k` registers from V0 on loaded from `a`, `a + 1`, … in rising order (`44_index_memory.md` R176). -/
def State.loadFrom (s : State) (a : Nat) : Nat → State
  | 0 => s
  | k + 1 => (State.loadFrom s a k).setReg (BitVec.ofNat 4 k) (s.byte (a + k))

/-! ### The display buffer (`10_state.md` R38) -/

/-- `DISP[r]`; a row index above 31 names no row and reads as 0 (its callers check the range, `46_display.md` R206). -/
def State.row (s : State) (r : Nat) : Row := s.disp[r]?.getD 0

/-- `DISP[r] <- w`; a row index above 31 names no row and nothing is written. -/
def State.setRow (s : State) (r : Nat) (w : Row) : State := { s with disp := s.disp.setIfInBounds r w }

/-- Every row 0 (`46_display.md` R201). -/
def State.clearRows (s : State) : State := { s with disp := Vector.replicate 32 0 }

/-! ### The stack (`41_control_flow.md` R111, R112) -/

/-- `push(w)`, for SP below 32: the high byte at SP, the low byte at SP + 1, and SP + 2. -/
def State.push (s : State) (w : BitVec 16) : State := (s.setHalf s.sp.toNat w).setSp (s.sp + 2)

/-- The frame that `pop()` returns, for SP of at least 2: the two bytes below SP. -/
def State.topFrame (s : State) : BitVec 16 := s.half (s.sp.toNat - 2)

/-- `pop()`'s change of SP, for SP of at least 2; the frame's bytes stay (`10_state.md` R35). -/
def State.dropFrame (s : State) : State := s.setSp (s.sp - 2)

/-! ### The inputs of a step (`40_step.md` R100) -/

/-- `keys`: the sample laid out for this request, or a free value (log 3). -/
def State.keys (s : State) : BitVec 16 :=
  match s.inputs with
  | [] => Config.freeKeys s.requests
  | x :: _ => x.keys

/-- `rand`: the byte laid out for this request, or a free value (log 3). -/
def State.rand (s : State) : Byte :=
  match s.inputs with
  | [] => Config.freeRand s.requests
  | x :: _ => x.rand

/-! ### How a step ends -/

/-- The model's own fields after a step request with result `r`: the request is counted, its sample used up, and the
load window closed (log 3, log 4, log 5). -/
def State.answer (s : State) (r : StepResult) (draw : Bool) : State :=
  { s with
    result := some r
    drawOut := draw
    requests := s.requests + 1
    inputs := s.inputs.tail
    loadOpen := false }

/-- Taking a fault (`60_exceptions.md` R222): the fault record is written and nothing else. `s` is the state at the
start of the step, so PC is the address of the faulting instruction. -/
def State.raise (s : State) (code : FaultCode) (op : Opcode) : State :=
  { s with
    halted := true
    faultCode := code
    faultPc := s.pc
    faultOpcode := op }.answer (.fault code) false

/-- A step request while halted: no state changes and the result is `Halted(FAULT_CODE)` (`40_step.md` R90). There
is no return from a fault (`60_exceptions.md` R224). -/
def State.answerHalted (s : State) : State := s.answer (.halted s.faultCode) false

/-- A timer after a decrement that saturates at 0 (`60_exceptions.md` R240). -/
def decay (b : Byte) : Byte := if b = 0 then 0 else b - 1

/-- The timer writeback (`60_exceptions.md` R241). -/
def State.timerWriteback (s : State) : State :=
  if (s.tdiv + 1) % s.params.timerPeriod = 0 then
    { s with
      tdiv := 0
      dt := decay s.dt
      st := decay s.st }
  else
    { s with tdiv := (s.tdiv + 1) % s.params.timerPeriod }

/-- The sequential address `seq = pc + 2`, a natural number that is never reduced (`40_step.md` R93). -/
def State.seq (s : State) : Nat := s.pc.toNat + 2

/-- The end of a step whose own checks have passed. `s` is the state at its start and `w` that state with the
instruction's writes. A next PC above 0xFFF is a fault of the step (`40_step.md` R97); otherwise the writes commit,
then PC, then the timers, then the outputs (R98). -/
def State.finish (s w : State) (op : Opcode) (next : Nat) (draw : Bool) : State :=
  if 0xFFF < next then s.raise .pcRange op
  else ((w.setPc (BitVec.ofNat 12 next)).timerWriteback).answer .ok draw

/-! ### Fetching (`40_step.md` R91) -/

/-- The opcode at PC, or none when its second byte would lie outside memory. -/
def State.fetch (s : State) : Option Opcode :=
  if 0xFFE < s.pc.toNat then none else some (s.half s.pc.toNat)

/-- What a step request does before an instruction executes (`40_step.md` R90, R91, R92): it finds the instruction to
run, or it ends at once in the state given. -/
inductive Fetched where
  | run (i : Instr)
  | stop (s : State)
deriving DecidableEq, Repr

/-- Halted, fetch out of range, unknown opcode, in this order (`40_step.md` R102, `60_exceptions.md` R223). -/
def State.fetched (s : State) : Fetched :=
  if s.halted then .stop s.answerHalted
  else
    match s.fetch with
    | none => .stop (s.raise .memRange 0)
    | some op =>
      match decodeWord op with
      | none => .stop (s.raise .unknownOpcode op)
      | some i => .run i

/-- The word `w` laid out where the next fetch reads, high byte first, each byte only where memory has one; a halted
machine fetches nothing, so HALTED is cleared (log 13). -/
def State.placeWord (s : State) (w : Opcode) : State :=
  let t := { s with halted := false }.setByte s.pc.toNat w.hi
  if s.pc.toNat + 1 < memSize then t.setByte (s.pc.toNat + 1) w.lo else t

end Sys2Proof.Machine
end

