-- ==== Sys2Proof/Machine/Operands.lean ====
section
/-! DEFINITION. Machine/Operands.lean: every operand form of the instruction set: addresses through I, the shifted
register, key queries, the glyph address, decimal digits, and the lane of a sprite row. -/

namespace Sys2Proof.Machine

/-- The last address of `k` bytes that start at I lies inside memory; none is touched when `k` is 0
(`20_memory.md` R56, `44_index_memory.md` R170). -/
def State.indexInRange (s : State) (k : Nat) : Bool := k == 0 || decide (s.i.toNat + k - 1 ≤ 0xFFF)

/-- An indexed write may start at I (`20_memory.md` R58). -/
def State.indexWritable (s : State) : Bool := decide (programBase ≤ s.i.toNat)

/-- A jump or call target outside the reserved low memory (`41_control_flow.md` R114, R115, R116). -/
def targetAllowed (nnn : Addr) : Bool := decide (programBase ≤ nnn.toNat)

/-- The register that 8xy6 and 8xyE shift (`43_alu.md` R149). -/
def State.shiftOperand (s : State) (x y : RegIdx) : Byte :=
  match s.params.shiftSource with
  | .x => s.reg x
  | .y => s.reg y

/-- `is_pressed(k) = keys[k]` (`40_step.md` R101). -/
def State.isPressed (s : State) (k : Nat) : Bool := s.keys.getLsbD k

/-- `pressed_key()`: the first held key in the order `KEY_ORDER` (`40_step.md` R101). -/
def State.pressedKey (s : State) : Option Key := s.params.keyOrder.find? (fun k => s.isPressed k.toNat)

/-- The address of the glyph for `b`, with no mask (`44_index_memory.md` R173). -/
def glyphAddr (b : Byte) : BitVec 16 := BitVec.ofNat 16 (fontBase + 5 * b.toNat)

/-- The hundreds digit (`44_index_memory.md` R174). -/
def hundreds (b : Byte) : Byte := BitVec.ofNat 8 (b.toNat / 100)

/-- The tens digit (`44_index_memory.md` R174). -/
def tens (b : Byte) : Byte := BitVec.ofNat 8 (b.toNat / 10 % 10)

/-- The ones digit (`44_index_memory.md` R174). -/
def ones (b : Byte) : Byte := BitVec.ofNat 8 (b.toNat % 10)

/-- The three digits of `b` at `a`, `a + 1`, `a + 2` (`44_index_memory.md` R174). -/
def State.storeDigits (s : State) (a : Nat) (b : Byte) : State :=
  ((s.setByte a (hundreds b)).setByte (a + 1) (tens b)).setByte (a + 2) (ones b)

/-- `bitrev8(b)`: bit `k` of the result is bit `7 - k` of `b` (`00_scope.md` R12). -/
def bitrev8 (b : Byte) : Byte :=
  b.extractLsb' 0 1 ++ b.extractLsb' 1 1 ++ b.extractLsb' 2 1 ++ b.extractLsb' 3 1 ++
    b.extractLsb' 4 1 ++ b.extractLsb' 5 1 ++ b.extractLsb' 6 1 ++ b.extractLsb' 7 1

/-- The lane of sprite byte `b` at column `col`: reversed, widened, shifted left, bits past 63 dropped
(`46_display.md` R202, R205). -/
def lane (b col : Byte) : Row := (bitrev8 b).zeroExtend 64 <<< col.toNat

/-- The last of `n` sprite rows from row `y` on is a row of the display; none is drawn when `n` is 0
(`46_display.md` R206, R207). -/
def rowsInRange (y : Byte) (n : Nat) : Bool := n == 0 || decide (y.toNat + n - 1 ≤ 31)

end Sys2Proof.Machine
end

