-- ==== Sys2Proof/Machine/Flags.lean ====
section
/-! DEFINITION. Machine/Flags.lean: every value VF receives as a flag (`10_state.md` R28), and the order of an
instruction's result and its flag (`43_alu.md` R140). -/

namespace Sys2Proof.Machine

/-- A flag as VF holds it: 1 or 0. -/
def flagByte (c : Bool) : Byte := if c then 1 else 0

/-- Carry of 8xy4: the sum passes 0xFF (`43_alu.md` R147). -/
def carry (a b : Byte) : Bool := decide (0xFF < a.toNat + b.toNat)

/-- Not-borrow of `a - b` (`43_alu.md` R148, R150). -/
def notBorrow (a b : Byte) : Bool := decide (b.toNat ≤ a.toNat)

/-- The bit that a right shift drops (`43_alu.md` R149). -/
def lowBit (b : Byte) : Bool := b.getLsbD 0

/-- The bit that a left shift drops (`43_alu.md` R151). -/
def highBit (b : Byte) : Bool := b.getLsbD 7

/-- A row collides when its lane meets a lit pixel (`46_display.md` R203). -/
def collides (old l : Row) : Bool := old &&& l != 0

/-- The result to `V[x]` first and the flag to VF second, so that with `x = 0xF` the flag stays
(`43_alu.md` R140, `10_state.md` R21). -/
def State.setResultFlag (s : State) (x : RegIdx) (r : Byte) (c : Bool) : State :=
  (s.setReg x r).setReg flagReg (flagByte c)

end Sys2Proof.Machine
end

