-- ==== Sys2Proof/Machine/Alu.lean ====
section
/-! DEFINITION. Machine/Alu.lean: register loads and arithmetic (`43_alu.md`). Every instruction here has `next = seq`,
and its only fault is PC_RANGE at 0xFFE. -/

namespace Sys2Proof.Machine

/-- An instruction that writes `V[x]` and nothing else, then goes on at `seq` (`43_alu.md` R141 to R146). -/
def State.writeReg (s : State) (op : Opcode) (x : RegIdx) (r : Byte) : State :=
  s.finish (s.setReg x r) op s.seq false

/-- An instruction that writes a result and a flag, then goes on at `seq` (`43_alu.md` R140). -/
def State.writeRegFlag (s : State) (op : Opcode) (x : RegIdx) (r : Byte) (c : Bool) : State :=
  s.finish (s.setResultFlag x r c) op s.seq false

/-- `6xkk` (`43_alu.md` R141). -/
def execLdImm (x : RegIdx) (kk : Byte) (s : State) : Host.Outcome State Fault Refusal :=
  .next (s.writeReg (encode (.ldImm x kk)) x kk)

/-- `7xkk` (`43_alu.md` R142). -/
def execAddImm (x : RegIdx) (kk : Byte) (s : State) : Host.Outcome State Fault Refusal :=
  .next (s.writeReg (encode (.addImm x kk)) x (s.reg x + kk))

/-- `8xy0` (`43_alu.md` R143). -/
def execLdReg (x y : RegIdx) (s : State) : Host.Outcome State Fault Refusal :=
  .next (s.writeReg (encode (.ldReg x y)) x (s.reg y))

/-- `8xy1` (`43_alu.md` R144). -/
def execOrReg (x y : RegIdx) (s : State) : Host.Outcome State Fault Refusal :=
  .next (s.writeReg (encode (.orReg x y)) x (s.reg x ||| s.reg y))

/-- `8xy2` (`43_alu.md` R145). -/
def execAndReg (x y : RegIdx) (s : State) : Host.Outcome State Fault Refusal :=
  .next (s.writeReg (encode (.andReg x y)) x (s.reg x &&& s.reg y))

/-- `8xy3` (`43_alu.md` R146). -/
def execXorReg (x y : RegIdx) (s : State) : Host.Outcome State Fault Refusal :=
  .next (s.writeReg (encode (.xorReg x y)) x (s.reg x ^^^ s.reg y))

/-- `8xy4` (`43_alu.md` R147). -/
def execAddReg (x y : RegIdx) (s : State) : Host.Outcome State Fault Refusal :=
  .next (s.writeRegFlag (encode (.addReg x y)) x (s.reg x + s.reg y) (carry (s.reg x) (s.reg y)))

/-- `8xy5` (`43_alu.md` R148). -/
def execSubReg (x y : RegIdx) (s : State) : Host.Outcome State Fault Refusal :=
  .next (s.writeRegFlag (encode (.subReg x y)) x (s.reg x - s.reg y) (notBorrow (s.reg x) (s.reg y)))

/-- `8xy6` (`43_alu.md` R149). -/
def execShrReg (x y : RegIdx) (s : State) : Host.Outcome State Fault Refusal :=
  .next (s.writeRegFlag (encode (.shrReg x y)) x (s.shiftOperand x y >>> 1) (lowBit (s.shiftOperand x y)))

/-- `8xy7` (`43_alu.md` R150). -/
def execSubnReg (x y : RegIdx) (s : State) : Host.Outcome State Fault Refusal :=
  .next (s.writeRegFlag (encode (.subnReg x y)) x (s.reg y - s.reg x) (notBorrow (s.reg y) (s.reg x)))

/-- `8xyE` (`43_alu.md` R151). -/
def execShlReg (x y : RegIdx) (s : State) : Host.Outcome State Fault Refusal :=
  .next (s.writeRegFlag (encode (.shlReg x y)) x (s.shiftOperand x y <<< 1) (highBit (s.shiftOperand x y)))

/-- `Cxkk` (`43_alu.md` R152). -/
def execRnd (x : RegIdx) (kk : Byte) (s : State) : Host.Outcome State Fault Refusal :=
  .next (s.writeReg (encode (.rnd x kk)) x (s.rand &&& kk))

end Sys2Proof.Machine
end

