-- ==== Sys2Proof/Machine/Control.lean ====
section
/-! DEFINITION. Machine/Control.lean: jumps, call and return (`41_control_flow.md`). -/

namespace Sys2Proof.Machine

/-- A jump to `nnn`, which faults below 0x200 (`41_control_flow.md` R114). -/
def State.jump (s : State) (op : Opcode) (nnn : Addr) : State :=
  if targetAllowed nnn then s.finish s op nnn.toNat false else s.raise .reservedTarget op

/-- `00EE` (`41_control_flow.md` R113). SP = 1 is no state of the machine: the pop would read address -1 (log 9). -/
def execRet (s : State) : Host.Outcome State Fault Refusal :=
  if s.sp = 0 then .next (s.raise .stackUnderflow (encode .ret))
  else if s.sp = 1 then .fault .popBelowZero
  else .next (s.finish s.dropFrame (encode .ret) s.topFrame.toNat false)

/-- `1nnn` (`41_control_flow.md` R114). -/
def execJp (nnn : Addr) (s : State) : Host.Outcome State Fault Refusal :=
  .next (s.jump (encode (.jp nnn)) nnn)

/-- `2nnn` (`41_control_flow.md` R115): the checks in the order of `60_exceptions.md` R223, then the push of the
already advanced PC. -/
def execCall (nnn : Addr) (s : State) : Host.Outcome State Fault Refusal :=
  .next
    (if 32 ≤ s.sp.toNat then s.raise .stackOverflow (encode (.call nnn))
     else if targetAllowed nnn then
       if 0xFFF < s.seq then s.raise .pcRange (encode (.call nnn))
       else s.finish (s.push (BitVec.ofNat 16 s.seq)) (encode (.call nnn)) nnn.toNat false
     else s.raise .reservedTarget (encode (.call nnn)))

/-- `Bnnn`: V0 is not read (`41_control_flow.md` R116). -/
def execJpb (nnn : Addr) (s : State) : Host.Outcome State Fault Refusal :=
  .next (s.jump (encode (.jpb nnn)) nnn)

end Sys2Proof.Machine
end

