-- ==== Sys2Proof/Machine/Display.lean ====
section
/-! DEFINITION. Machine/Display.lean: clearing the display and drawing sprites (`46_display.md`). Both present the
display buffer on the `draw` port (R200). -/

namespace Sys2Proof.Machine

/-- Sprite row `r` drawn at column `col` of display row `y + r` by XOR (`46_display.md` R202). -/
def State.drawRow (s : State) (col : Byte) (y r : Nat) : State :=
  s.setRow (y + r) (s.row (y + r) ^^^ lane (s.byte (s.i.toNat + r)) col)

/-- The first `n` sprite rows drawn, row 0 first (`46_display.md` R202). -/
def State.drawRows (s : State) (col : Byte) (y : Nat) : Nat → State
  | 0 => s
  | r + 1 => (State.drawRows s col y r).drawRow col y r

/-- Whether any of the first `n` sprite rows meets a lit pixel, accumulated over the rows (`46_display.md` R203). The
rows are distinct, so each is read as it was before the instruction. -/
def State.drawCollides (s : State) (col : Byte) (y : Nat) : Nat → Bool
  | 0 => false
  | r + 1 => State.drawCollides s col y r || collides (s.row (y + r)) (lane (s.byte (s.i.toNat + r)) col)

/-- `00E0` (`46_display.md` R201). -/
def execCls (s : State) : Host.Outcome State Fault Refusal :=
  .next (s.finish s.clearRows (encode .cls) s.seq true)

/-- `Dxyn` (`46_display.md` R202): the checks, then the rows, then VF once. The coordinates are read before VF is
written. -/
def execDrw (x y : RegIdx) (n : Nibble) (s : State) : Host.Outcome State Fault Refusal :=
  .next
    (if s.indexInRange n.toNat then
       if rowsInRange (s.reg y) n.toNat then
         s.finish
           ((s.drawRows (s.reg x) (s.reg y).toNat n.toNat).setReg flagReg
             (flagByte (s.drawCollides (s.reg x) (s.reg y).toNat n.toNat)))
           (encode (.drw x y n)) s.seq true
       else s.raise .displayRange (encode (.drw x y n))
     else s.raise .memRange (encode (.drw x y n)))

end Sys2Proof.Machine
end

