-- ==== Sys2Proof/Machine/IndexMemory.lean ====
section
/-! DEFINITION. Machine/IndexMemory.lean: the index register and memory transfers (`44_index_memory.md`). Every
instruction here has `next = seq`; its own faults come before PC_RANGE (`60_exceptions.md` R223). -/

namespace Sys2Proof.Machine

/-- `Annn` (`44_index_memory.md` R171). -/
def execLdI (nnn : Addr) (s : State) : Host.Outcome State Fault Refusal :=
  .next (s.finish (s.setI (nnn.zeroExtend 16)) (encode (.ldI nnn)) s.seq false)

/-- `Fx1E`: a sum above 0xFFFF faults, and VF is not written (`44_index_memory.md` R172). -/
def execAddI (x : RegIdx) (s : State) : Host.Outcome State Fault Refusal :=
  .next
    (if 0xFFFF < s.i.toNat + (s.reg x).toNat then s.raise .indexOverflow (encode (.addI x))
     else s.finish (s.setI (BitVec.ofNat 16 (s.i.toNat + (s.reg x).toNat))) (encode (.addI x)) s.seq false)

/-- `Fx29` (`44_index_memory.md` R173). -/
def execLdFont (x : RegIdx) (s : State) : Host.Outcome State Fault Refusal :=
  .next (s.finish (s.setI (glyphAddr (s.reg x))) (encode (.ldFont x)) s.seq false)

/-- `Fx33` (`44_index_memory.md` R174). -/
def execBcd (x : RegIdx) (s : State) : Host.Outcome State Fault Refusal :=
  .next
    (if s.indexWritable then
       if s.indexInRange 3 then s.finish (s.storeDigits s.i.toNat (s.reg x)) (encode (.bcd x)) s.seq false
       else s.raise .memRange (encode (.bcd x))
     else s.raise .reservedWrite (encode (.bcd x)))

/-- `Fx55` (`44_index_memory.md` R175). -/
def execStoreRegs (x : RegIdx) (s : State) : Host.Outcome State Fault Refusal :=
  .next
    (if s.indexWritable then
       if s.indexInRange (x.toNat + 1) then
         s.finish ((s.storeFrom s.i.toNat (x.toNat + 1)).setI (BitVec.ofNat 16 (s.i.toNat + x.toNat + 1)))
           (encode (.storeRegs x)) s.seq false
       else s.raise .memRange (encode (.storeRegs x))
     else s.raise .reservedWrite (encode (.storeRegs x)))

/-- `Fx65`: reads are not guarded below 0x200 (`44_index_memory.md` R176). -/
def execLoadRegs (x : RegIdx) (s : State) : Host.Outcome State Fault Refusal :=
  .next
    (if s.indexInRange (x.toNat + 1) then
       s.finish ((s.loadFrom s.i.toNat (x.toNat + 1)).setI (BitVec.ofNat 16 (s.i.toNat + x.toNat + 1)))
         (encode (.loadRegs x)) s.seq false
     else s.raise .memRange (encode (.loadRegs x)))

end Sys2Proof.Machine
end

