-- ==== Sys2Proof/Machine/Skips.lean ====
section
/-! DEFINITION. Machine/Skips.lean: the conditional skips (`42_skips.md`). -/

namespace Sys2Proof.Machine

/-- The skip mechanism (`42_skips.md` R130): `pc + 4` when the condition holds, else `seq`. -/
def State.skip (s : State) (op : Opcode) (c : Bool) : State :=
  s.finish s op (if c then s.pc.toNat + 4 else s.seq) false

/-- A skip on the state of the key numbered `b`, which faults above 0xF (`42_skips.md` R135, R136). -/
def State.skipOnKey (s : State) (op : Opcode) (b : Byte) (held : Bool) : State :=
  if 0xF < b.toNat then s.raise .keyRange op else s.skip op (s.isPressed b.toNat == held)

/-- `3xkk` (`42_skips.md` R131). -/
def execSeImm (x : RegIdx) (kk : Byte) (s : State) : Host.Outcome State Fault Refusal :=
  .next (s.skip (encode (.seImm x kk)) (s.reg x == kk))

/-- `4xkk` (`42_skips.md` R132). -/
def execSneImm (x : RegIdx) (kk : Byte) (s : State) : Host.Outcome State Fault Refusal :=
  .next (s.skip (encode (.sneImm x kk)) (s.reg x != kk))

/-- `5xy0` (`42_skips.md` R133). -/
def execSeReg (x y : RegIdx) (s : State) : Host.Outcome State Fault Refusal :=
  .next (s.skip (encode (.seReg x y)) (s.reg x == s.reg y))

/-- `9xy0` (`42_skips.md` R134). -/
def execSneReg (x y : RegIdx) (s : State) : Host.Outcome State Fault Refusal :=
  .next (s.skip (encode (.sneReg x y)) (s.reg x != s.reg y))

/-- `Ex9E` (`42_skips.md` R135). -/
def execSkp (x : RegIdx) (s : State) : Host.Outcome State Fault Refusal :=
  .next (s.skipOnKey (encode (.skp x)) (s.reg x) true)

/-- `ExA1` (`42_skips.md` R136). -/
def execSknp (x : RegIdx) (s : State) : Host.Outcome State Fault Refusal :=
  .next (s.skipOnKey (encode (.sknp x)) (s.reg x) false)

end Sys2Proof.Machine
end

