-- ==== Sys2Proof/Machine/TimersKeys.lean ====
section
/-! DEFINITION. Machine/TimersKeys.lean: timer access and the key wait (`45_timers_keys.md`). The timer writeback of
the step comes after these (R190). -/

namespace Sys2Proof.Machine

/-- `Fx07` (`45_timers_keys.md` R191). -/
def execLdFromDt (x : RegIdx) (s : State) : Host.Outcome State Fault Refusal :=
  .next (s.finish (s.setReg x s.dt) (encode (.ldFromDt x)) s.seq false)

/-- `Fx0A`: with no key held the same instruction runs again, and the step still commits (`45_timers_keys.md` R192). -/
def execLdKey (x : RegIdx) (s : State) : Host.Outcome State Fault Refusal :=
  .next
    (match s.pressedKey with
     | none => s.finish s (encode (.ldKey x)) s.pc.toNat false
     | some k => s.finish (s.setReg x (k.zeroExtend 8)) (encode (.ldKey x)) s.seq false)

/-- `Fx15` (`45_timers_keys.md` R193). -/
def execLdToDt (x : RegIdx) (s : State) : Host.Outcome State Fault Refusal :=
  .next (s.finish (s.setDt (s.reg x)) (encode (.ldToDt x)) s.seq false)

/-- `Fx18` (`45_timers_keys.md` R194). -/
def execLdToSt (x : RegIdx) (s : State) : Host.Outcome State Fault Refusal :=
  .next (s.finish (s.setSt (s.reg x)) (encode (.ldToSt x)) s.seq false)

end Sys2Proof.Machine
end

