-- ==== Sys2Proof/Machine/Step.lean ====
section
/-! DEFINITION. Machine/Step.lean: one step request (`40_step.md` R102). Checking HALTED, fetching and decoding are
`State.fetched`; the instruction, its commit and its outputs are `exec`. -/

namespace Sys2Proof.Machine

/-- One step request: "advance the machine by exactly one instruction" (`40_step.md` R90, R102). The answer is a next
state for a committed step, for a fault's entry and for a request while halted (log 6). -/
def step (s : State) : Host.Outcome State Fault Refusal :=
  match s.fetched with
  | .stop t => .next t
  | .run i => exec i s

/-- `s` with the instruction whose bits are `w`, numbered as spec/opcode_table.json numbers them, stored where `step`
fetches next, high byte first (log 13). -/
def State.withFetchWord (s : State) (nbits w : Nat) : State :=
  s.placeWord (BitVec.ofNat 16 (w % 2 ^ nbits))

end Sys2Proof.Machine
end

