-- ==== Sys2Proof/Machine/HostPort.lean ====
section
/-! DEFINITION. Machine/HostPort.lean: the CORE's ports towards the host and the adapters (`60_exceptions.md` R244,
R248): reset, program load, step requests with their inputs, and what can be read between steps. -/

namespace Sys2Proof.Machine

/-- Reset of a machine between steps: the state of `10_state.md` R41 for the same parameters, which clears a fault
(`70_reset_and_hazards.md` R260). The host's samples and the count of requests are no state of the machine and go on,
so that free input values do not repeat (log 16). -/
def State.hostReset (s : State) : State :=
  { State.resetWith s.params with inputs := s.inputs, requests := s.requests }

/-- The longest program image, 0xE00 bytes (`00_scope.md` R9). -/
abbrev maxImage : Nat := 3584

/-- The bytes of an image written at `a`, `a + 1`, … (`70_reset_and_hazards.md` R263). -/
def State.writeImage (s : State) : Nat → List Byte → State
  | _, [] => s
  | a, b :: image => State.writeImage (s.setByte a b) (a + 1) image

/-- Program load: at 0x200, after reset and before the first step, at most 3584 bytes; otherwise it is refused and
memory is unchanged (`70_reset_and_hazards.md` R263, log 15). -/
def State.hostLoad (s : State) (image : List Byte) : Host.Outcome State Fault Refusal :=
  if s.loadOpen then
    if image.length ≤ maxImage then
      .next { s.writeImage programBase image with loadOpen := false, drawOut := false }
    else .refused .imageTooLong
  else .refused .loadClosed

/-- What the host may ask between steps (`60_exceptions.md` R248). It has no other way to write state. -/
inductive HostRequest where
  /-- Reset (`70_reset_and_hazards.md` R260). -/
  | reset
  /-- Load one program image (`70_reset_and_hazards.md` R263). -/
  | load (image : List Byte)
  /-- One step, with its inputs (`40_step.md` R90, R100). -/
  | step (keys : BitVec 16) (rand : Byte)
deriving DecidableEq, Repr

/-- The machine's answer to one host request (`60_exceptions.md` R248). -/
def serve (r : HostRequest) (s : State) : Host.Outcome State Fault Refusal :=
  match r with
  | .reset => .next s.hostReset
  | .load image => s.hostLoad image
  | .step keys rand => step { s with inputs := ⟨keys, rand⟩ :: s.inputs }

/-- The `draw` port: the whole display buffer, row 0 first, when the last transaction presented it
(`46_display.md` R200). -/
def State.drawPort (s : State) : Option (Vector Row 32) :=
  if s.drawOut then some s.disp else none

/-- The `sound` port: the value of ST (`60_exceptions.md` R246). -/
def State.soundPort (s : State) : Byte := s.st

/-- The number of a fault code (`60_exceptions.md` R221). -/
def FaultCode.number : FaultCode → BitVec 4
  | .none => 0
  | .unknownOpcode => 1
  | .stackOverflow => 2
  | .stackUnderflow => 3
  | .reservedTarget => 4
  | .reservedWrite => 5
  | .memRange => 6
  | .pcRange => 7
  | .indexOverflow => 8
  | .keyRange => 9
  | .displayRange => 10

/-- State readout of main memory: all 4096 bytes (`60_exceptions.md` R250). Every other field is read as it is. -/
def State.memoryDump (s : State) : List Byte := (List.range memSize).map s.byte

end Sys2Proof.Machine
end

