-- ==== Sys2Proof/Safety.lean ====
section
/-! DEFINITION. Safety.lean: the terms the statements are written in. What a committed step does beside its own writes,
the tables of the spec that say over all instructions which fault comes first, where PC goes and what is written, and
the invariant of the machine. Everything here is written from the spec's rules, not from the meanings. -/

namespace Sys2Proof.Machine

/-! ### What a committed step does beside the instruction's own writes -/

/-- The timer writeback of a committed step that starts in `s` and ends in `t`, on the timers `dt` and `st` as the
instruction left them (`60_exceptions.md` R241): TDIV advances modulo the period, and when it comes to 0 each timer
goes down by 1, never below 0 (Nat subtraction stops at 0). -/
structure Ticked (s t : State) (dt st : Byte) : Prop where
  divider : t.tdiv = (s.tdiv + 1) % s.params.timerPeriod
  delay : t.dt.toNat = dt.toNat - (if (s.tdiv + 1) % s.params.timerPeriod = 0 then 1 else 0)
  sound : t.st.toNat = st.toNat - (if (s.tdiv + 1) % s.params.timerPeriod = 0 then 1 else 0)

/-- HALTED, FAULT_CODE, FAULT_PC and FAULT_OPCODE are as before. -/
structure SameFaultRecord (s t : State) : Prop where
  halted : t.halted = s.halted
  code : t.faultCode = s.faultCode
  pc : t.faultPc = s.faultPc
  opcode : t.faultOpcode = s.faultOpcode

/-- The outputs of a step request: the `result` port (`40_step.md` R99), and whether the display buffer is presented
on the `draw` port (`46_display.md` R200). -/
structure Answered (t : State) (r : StepResult) (draw : Bool) : Prop where
  result : t.result = some r
  drawOut : t.drawOut = draw

/-- A step from `s` that commits (`40_step.md` R98) in `t`: PC is `next`, the timers `dt` and `st` of the instruction
stage went through the writeback, the fault record and the parameters are as before, and the result is `Ok`. It says
nothing of V, I, SP, memory and the display. -/
structure Committed (s t : State) (next : Nat) (dt st : Byte) (draw : Bool) : Prop where
  pc : t.pc.toNat = next
  timers : Ticked s t dt st
  record : SameFaultRecord s t
  params : t.params = s.params
  ports : Answered t .ok draw

/-- Every general register is as before. -/
def SameRegs (s t : State) : Prop := ∀ z : RegIdx, t.reg z = s.reg z

/-- Every byte of memory is as before. -/
def SameMemory (s t : State) : Prop := ∀ a : Nat, t.byte a = s.byte a

/-- Every field the spec gives the machine, and every parameter, is as before; the model's own fields may differ. -/
structure SameMachine (s t : State) : Prop where
  v : t.v = s.v
  pc : t.pc = s.pc
  i : t.i = s.i
  sp : t.sp = s.sp
  dt : t.dt = s.dt
  st : t.st = s.st
  tdiv : t.tdiv = s.tdiv
  mem : t.mem = s.mem
  disp : t.disp = s.disp
  record : SameFaultRecord s t
  params : t.params = s.params

/-- A committed step that writes none of I, SP, memory, the display and the timers, with PC at `next`. -/
structure RegisterStep (s t : State) (next : Nat) : Prop where
  committed : Committed s t next s.dt s.st false
  i : t.i = s.i
  sp : t.sp = s.sp
  memory : SameMemory s t
  disp : t.disp = s.disp

/-- A committed step in sequence whose only own write is `V[x] <- r`. -/
structure WritesReg (s t : State) (x : RegIdx) (r : Byte) : Prop where
  dest : t.reg x = r
  others : ∀ z, z ≠ x → t.reg z = s.reg z
  rest : RegisterStep s t (s.pc.toNat + 2)

/-- A committed step in sequence that writes a result of value `r` to `V[x]` and then the flag `c` to VF: with
`x = 0xF` the flag stays (`43_alu.md` R140). -/
structure WritesRegFlag (s t : State) (x : RegIdx) (r : Nat) (c : Prop) : Prop where
  flagSet : c → t.reg flagReg = 1
  flagClear : ¬ c → t.reg flagReg = 0
  dest : x ≠ flagReg → (t.reg x).toNat = r
  others : ∀ z, z ≠ x → z ≠ flagReg → t.reg z = s.reg z
  rest : RegisterStep s t (s.pc.toNat + 2)

/-- A committed step that writes no register and none of I, SP, memory, display and timers: only PC moves. -/
structure MovesPc (s t : State) (next : Nat) : Prop where
  regs : SameRegs s t
  rest : RegisterStep s t next

/-- A committed step in sequence whose only own write is `I <- w`. -/
structure WritesIndex (s t : State) (w : Nat) : Prop where
  index : t.i.toNat = w
  regs : SameRegs s t
  sp : t.sp = s.sp
  memory : SameMemory s t
  disp : t.disp = s.disp
  committed : Committed s t (s.pc.toNat + 2) s.dt s.st false

/-- The step faults with `code`: the next state is the entry of that fault (`60_exceptions.md` R222). -/
def Faults (i : Instr) (s : State) (code : FaultCode) : Prop :=
  exec i s = .next (s.raise code (encode i))

/-- The pixel at column `c` of row `r` (`10_state.md` R38). -/
def State.pixel (s : State) (c r : Nat) : Bool := (s.row r).getLsbD c

/-- The pixel at column `c` that a sprite byte `b` drawn at column `col` lights or flips (`46_display.md` R204): it is
column `col + j` for a `j` below 8 with bit `7 - j` of `b` set. -/
def spritePixel (b : Byte) (col c : Nat) : Bool :=
  decide (col ≤ c ∧ c < col + 8) && b.getLsbD (7 - (c - col))

/-! ### The tables of the spec over all instructions -/

/-- Some key that the key wait looks for is held (`40_step.md` R101). -/
def State.anyKey (s : State) : Bool := s.params.keyOrder.any (fun k => s.keys.getLsbD k.toNat)

/-- The condition of a skip instruction holds (`42_skips.md` R131 to R136). -/
def skipHolds (s : State) : Instr → Bool
  | .seImm x kk => s.reg x == kk
  | .sneImm x kk => s.reg x != kk
  | .seReg x y => s.reg x == s.reg y
  | .sneReg x y => s.reg x != s.reg y
  | .skp x => s.keys.getLsbD (s.reg x).toNat
  | .sknp x => !s.keys.getLsbD (s.reg x).toNat
  | .cls | .ret | .jp _ | .call _ | .ldImm _ _ | .addImm _ _ | .ldReg _ _ | .orReg _ _ | .andReg _ _ | .xorReg _ _
  | .addReg _ _ | .subReg _ _ | .shrReg _ _ | .subnReg _ _ | .shlReg _ _ | .ldI _ | .jpb _ | .rnd _ _ | .drw _ _ _
  | .ldFromDt _ | .ldKey _ | .ldToDt _ | .ldToSt _ | .addI _ | .ldFont _ | .bcd _ | .storeRegs _ | .loadRegs _ => false

/-- The next PC of each instruction, a natural number that is never reduced (`40_step.md` R96). -/
def nextPc (s : State) : Instr → Nat
  | .ret => 256 * (s.byte (s.sp.toNat - 2)).toNat + (s.byte (s.sp.toNat - 1)).toNat
  | .jp nnn | .jpb nnn | .call nnn => nnn.toNat
  | .seImm x kk => s.pc.toNat + if skipHolds s (.seImm x kk) then 4 else 2
  | .sneImm x kk => s.pc.toNat + if skipHolds s (.sneImm x kk) then 4 else 2
  | .seReg x y => s.pc.toNat + if skipHolds s (.seReg x y) then 4 else 2
  | .sneReg x y => s.pc.toNat + if skipHolds s (.sneReg x y) then 4 else 2
  | .skp x => s.pc.toNat + if skipHolds s (.skp x) then 4 else 2
  | .sknp x => s.pc.toNat + if skipHolds s (.sknp x) then 4 else 2
  | .ldKey _ => s.pc.toNat + if s.anyKey then 2 else 0
  | .cls | .ldImm _ _ | .addImm _ _ | .ldReg _ _ | .orReg _ _ | .andReg _ _ | .xorReg _ _ | .addReg _ _ | .subReg _ _
  | .shrReg _ _ | .subnReg _ _ | .shlReg _ _ | .ldI _ | .rnd _ _ | .drw _ _ _ | .ldFromDt _ | .ldToDt _ | .ldToSt _
  | .addI _ | .ldFont _ | .bcd _ | .storeRegs _ | .loadRegs _ => s.pc.toNat + 2

/-- The first of an instruction's own faults, in the order of `60_exceptions.md` R223 item 3. -/
def ownFault (s : State) : Instr → Option FaultCode
  | .call nnn =>
    if 32 ≤ s.sp.toNat then some .stackOverflow
    else if nnn.toNat < 0x200 then some .reservedTarget
    else if 0xFFF < s.pc.toNat + 2 then some .pcRange
    else none
  | .ret => if s.sp.toNat = 0 then some .stackUnderflow else none
  | .jp nnn | .jpb nnn => if nnn.toNat < 0x200 then some .reservedTarget else none
  | .drw _ y n =>
    if 0 < n.toNat ∧ 0xFFF < s.i.toNat + n.toNat - 1 then some .memRange
    else if 0 < n.toNat ∧ 31 < (s.reg y).toNat + n.toNat - 1 then some .displayRange
    else none
  | .bcd _ =>
    if s.i.toNat < 0x200 then some .reservedWrite else if 0xFFF < s.i.toNat + 2 then some .memRange else none
  | .storeRegs x =>
    if s.i.toNat < 0x200 then some .reservedWrite else if 0xFFF < s.i.toNat + x.toNat then some .memRange else none
  | .loadRegs x => if 0xFFF < s.i.toNat + x.toNat then some .memRange else none
  | .addI x => if 0xFFFF < s.i.toNat + (s.reg x).toNat then some .indexOverflow else none
  | .skp x | .sknp x => if 0xF < (s.reg x).toNat then some .keyRange else none
  | .cls | .seImm _ _ | .sneImm _ _ | .seReg _ _ | .sneReg _ _ | .ldImm _ _ | .addImm _ _ | .ldReg _ _ | .orReg _ _
  | .andReg _ _ | .xorReg _ _ | .addReg _ _ | .subReg _ _ | .shrReg _ _ | .subnReg _ _ | .shlReg _ _ | .ldI _ | .rnd _ _
  | .ldFromDt _ | .ldKey _ | .ldToDt _ | .ldToSt _ | .ldFont _ => none

/-- The fault that executing an instruction raises, if any: its own faults first, then PC_RANGE for its next PC
(`60_exceptions.md` R223 items 3 and 4). -/
def faultOf (s : State) (i : Instr) : Option FaultCode :=
  match ownFault s i with
  | some c => some c
  | none => if 0xFFF < nextPc s i then some .pcRange else none

/-- The general registers an instruction may write (`10_state.md` R22). -/
def mayWriteReg (s : State) (z : RegIdx) : Instr → Bool
  | .ldImm x _ | .addImm x _ | .ldReg x _ | .orReg x _ | .andReg x _ | .xorReg x _ | .rnd x _ | .ldFromDt x => z == x
  | .ldKey x => s.anyKey && z == x
  | .addReg x _ | .subReg x _ | .shrReg x _ | .subnReg x _ | .shlReg x _ => z == x || z == flagReg
  | .drw _ _ _ => z == flagReg
  | .loadRegs x => decide (z.toNat ≤ x.toNat)
  | .cls | .ret | .jp _ | .call _ | .seImm _ _ | .sneImm _ _ | .seReg _ _ | .sneReg _ _ | .ldI _ | .jpb _ | .skp _
  | .sknp _ | .ldToDt _ | .ldToSt _ | .addI _ | .ldFont _ | .bcd _ | .storeRegs _ => false

/-- The bytes of memory an instruction may write (`20_memory.md` R57). -/
def mayStore (s : State) (a : Nat) : Instr → Bool
  | .call _ => a == s.sp.toNat || a == s.sp.toNat + 1
  | .bcd _ => decide (s.i.toNat ≤ a ∧ a ≤ s.i.toNat + 2)
  | .storeRegs x => decide (s.i.toNat ≤ a ∧ a ≤ s.i.toNat + x.toNat)
  | .cls | .ret | .jp _ | .seImm _ _ | .sneImm _ _ | .seReg _ _ | .sneReg _ _ | .ldImm _ _ | .addImm _ _ | .ldReg _ _
  | .orReg _ _ | .andReg _ _ | .xorReg _ _ | .addReg _ _ | .subReg _ _ | .shrReg _ _ | .subnReg _ _ | .shlReg _ _
  | .ldI _ | .jpb _ | .rnd _ _ | .drw _ _ _ | .skp _ | .sknp _ | .ldFromDt _ | .ldKey _ | .ldToDt _ | .ldToSt _
  | .addI _ | .ldFont _ | .loadRegs _ => false

/-- I is written by Annn, Fx1E, Fx29, Fx55 and Fx65 (`10_state.md` R30). -/
def writesIndexReg : Instr → Bool
  | .ldI _ | .addI _ | .ldFont _ | .storeRegs _ | .loadRegs _ => true
  | .cls | .ret | .jp _ | .call _ | .seImm _ _ | .sneImm _ _ | .seReg _ _ | .sneReg _ _ | .ldImm _ _ | .addImm _ _
  | .ldReg _ _ | .orReg _ _ | .andReg _ _ | .xorReg _ _ | .addReg _ _ | .subReg _ _ | .shrReg _ _ | .subnReg _ _
  | .shlReg _ _ | .jpb _ | .rnd _ _ | .drw _ _ _ | .skp _ | .sknp _ | .ldFromDt _ | .ldKey _ | .ldToDt _ | .ldToSt _
  | .bcd _ => false

/-- The display buffer is reached by 00E0 and Dxyn alone (`10_state.md` R38), which also present it
(`46_display.md` R200). -/
def drawsDisplay : Instr → Bool
  | .cls | .drw _ _ _ => true
  | .ret | .jp _ | .call _ | .seImm _ _ | .sneImm _ _ | .seReg _ _ | .sneReg _ _ | .ldImm _ _ | .addImm _ _
  | .ldReg _ _ | .orReg _ _ | .andReg _ _ | .xorReg _ _ | .addReg _ _ | .subReg _ _ | .shrReg _ _ | .subnReg _ _
  | .shlReg _ _ | .ldI _ | .jpb _ | .rnd _ _ | .skp _ | .sknp _ | .ldFromDt _ | .ldKey _ | .ldToDt _ | .ldToSt _
  | .addI _ | .ldFont _ | .bcd _ | .storeRegs _ | .loadRegs _ => false

/-- SP is changed by 2nnn and 00EE alone (`10_state.md` R31). -/
def movesStack : Instr → Bool
  | .ret | .call _ => true
  | .cls | .jp _ | .seImm _ _ | .sneImm _ _ | .seReg _ _ | .sneReg _ _ | .ldImm _ _ | .addImm _ _ | .ldReg _ _
  | .orReg _ _ | .andReg _ _ | .xorReg _ _ | .addReg _ _ | .subReg _ _ | .shrReg _ _ | .subnReg _ _ | .shlReg _ _
  | .ldI _ | .jpb _ | .rnd _ _ | .drw _ _ _ | .skp _ | .sknp _ | .ldFromDt _ | .ldKey _ | .ldToDt _ | .ldToSt _
  | .addI _ | .ldFont _ | .bcd _ | .storeRegs _ | .loadRegs _ => false

/-- DT at the end of the instruction stage: Fx15 sets it, nothing else does (`10_state.md` R32). -/
def stagedDt (s : State) : Instr → Byte
  | .ldToDt x => s.reg x
  | .cls | .ret | .jp _ | .call _ | .seImm _ _ | .sneImm _ _ | .seReg _ _ | .sneReg _ _ | .ldImm _ _ | .addImm _ _
  | .ldReg _ _ | .orReg _ _ | .andReg _ _ | .xorReg _ _ | .addReg _ _ | .subReg _ _ | .shrReg _ _ | .subnReg _ _
  | .shlReg _ _ | .ldI _ | .jpb _ | .rnd _ _ | .drw _ _ _ | .skp _ | .sknp _ | .ldFromDt _ | .ldKey _ | .ldToSt _
  | .addI _ | .ldFont _ | .bcd _ | .storeRegs _ | .loadRegs _ => s.dt

/-- ST at the end of the instruction stage: Fx18 sets it, nothing else does (`10_state.md` R33). -/
def stagedSt (s : State) : Instr → Byte
  | .ldToSt x => s.reg x
  | .cls | .ret | .jp _ | .call _ | .seImm _ _ | .sneImm _ _ | .seReg _ _ | .sneReg _ _ | .ldImm _ _ | .addImm _ _
  | .ldReg _ _ | .orReg _ _ | .andReg _ _ | .xorReg _ _ | .addReg _ _ | .subReg _ _ | .shrReg _ _ | .subnReg _ _
  | .shlReg _ _ | .ldI _ | .jpb _ | .rnd _ _ | .drw _ _ _ | .skp _ | .sknp _ | .ldFromDt _ | .ldKey _ | .ldToDt _
  | .addI _ | .ldFont _ | .bcd _ | .storeRegs _ | .loadRegs _ => s.st

/-- Cxkk alone reads the random byte (`60_exceptions.md` R247). -/
def readsRand : Instr → Bool
  | .rnd _ _ => true
  | .cls | .ret | .jp _ | .call _ | .seImm _ _ | .sneImm _ _ | .seReg _ _ | .sneReg _ _ | .ldImm _ _ | .addImm _ _
  | .ldReg _ _ | .orReg _ _ | .andReg _ _ | .xorReg _ _ | .addReg _ _ | .subReg _ _ | .shrReg _ _ | .subnReg _ _
  | .shlReg _ _ | .ldI _ | .jpb _ | .drw _ _ _ | .skp _ | .sknp _ | .ldFromDt _ | .ldKey _ | .ldToDt _ | .ldToSt _
  | .addI _ | .ldFont _ | .bcd _ | .storeRegs _ | .loadRegs _ => false

/-- Ex9E, ExA1 and Fx0A alone reach the keyboard (`10_state.md` R39). -/
def readsKeys : Instr → Bool
  | .skp _ | .sknp _ | .ldKey _ => true
  | .cls | .ret | .jp _ | .call _ | .seImm _ _ | .sneImm _ _ | .seReg _ _ | .sneReg _ _ | .ldImm _ _ | .addImm _ _
  | .ldReg _ _ | .orReg _ _ | .andReg _ _ | .xorReg _ _ | .addReg _ _ | .subReg _ _ | .shrReg _ _ | .subnReg _ _
  | .shlReg _ _ | .ldI _ | .jpb _ | .rnd _ _ | .drw _ _ _ | .ldFromDt _ | .ldToDt _ | .ldToSt _
  | .addI _ | .ldFont _ | .bcd _ | .storeRegs _ | .loadRegs _ => false

/-! ### Outcomes and runs -/

/-- A skip instruction with condition `c` (`42_skips.md` R130): PC goes on by 4 when the condition holds and by 2 when
it does not, nothing else moves, and a next PC above 0xFFF faults. -/
def SkipsOn (i : Instr) (s : State) (c : Bool) : Prop :=
  (s.pc.toNat + (if c then 4 else 2) ≤ 0xFFF →
    ∃ t, exec i s = .next t ∧ MovesPc s t (s.pc.toNat + if c then 4 else 2)) ∧
  (0xFFF < s.pc.toNat + (if c then 4 else 2) → Faults i s .pcRange)

/-- Both bytes at PC lie inside memory and they are this instruction (`40_step.md` R91, R92). -/
def AtPc (s : State) (i : Instr) : Prop :=
  s.pc.toNat ≤ 0xFFE ∧ decode [s.byte s.pc.toNat, s.byte (s.pc.toNat + 1)] = .ok (i, [])

/-- Some step requests lead from one state to another, and SP is never below `n` after any of them. -/
inductive RunsAbove (n : Nat) : State → State → Prop where
  | none (s : State) : RunsAbove n s s
  | one {s u t : State} : RunsAbove n s u → step u = .next t → n ≤ t.sp.toNat → RunsAbove n s t

/-- `k` committed steps lead from one state to another, and none of them is an Fx15 or an Fx18. -/
inductive QuietRun : Nat → State → State → Prop where
  | none (s : State) : QuietRun 0 s s
  | one {k : Nat} {s u t : State} (i : Instr) : QuietRun k s u → AtPc u i → (∀ x, i ≠ .ldToDt x) →
      (∀ x, i ≠ .ldToSt x) → step u = .next t → t.result = some .ok → QuietRun (k + 1) s t

/-! ### The invariant -/

/-- The 16-bit value of the frame at `2k` and `2k + 1` (`41_control_flow.md` R110). -/
def State.frame (s : State) (k : Nat) : Nat := 256 * (s.byte (2 * k)).toNat + (s.byte (2 * k + 1)).toNat

/-- What holds of the machine at reset and after every request of the host. -/
structure Inv (s : State) : Prop where
  /-- The parameters are legal (`00_scope.md` R10). -/
  params : s.params.wf = true
  /-- Memory is in canonical form, every cell inside the address space (`20_memory.md` R50). -/
  mem : Memory.wf (resetByte s.params) s.mem
  /-- SP is even (`10_state.md` R31). -/
  spEven : s.sp.toNat % 2 = 0
  /-- SP is at most 32 (`10_state.md` R31). -/
  spMax : s.sp.toNat ≤ 32
  /-- Every frame on the stack is a return address from 0x202 to 0xFFF (`41_control_flow.md` R113). -/
  frames : ∀ k, 2 * k + 2 ≤ s.sp.toNat → 0x202 ≤ s.frame k ∧ s.frame k ≤ 0xFFF
  /-- PC is never below 0x200 (`10_state.md` R26). -/
  pcLow : 0x200 ≤ s.pc.toNat
  /-- TDIV counts modulo the period (`10_state.md` R34). -/
  divider : s.tdiv < s.params.timerPeriod
  /-- The font and the reserved zero region hold their reset contents (`20_memory.md` R52). -/
  lowBytes : ∀ a, 0x20 ≤ a → a < 0x200 → s.byte a = resetByte s.params a
  /-- The machine is halted exactly when a fault is recorded (`10_state.md` R36). -/
  record : s.halted = true ↔ s.faultCode ≠ .none
  /-- While halted, PC still holds the faulting instruction's address (`60_exceptions.md` R222). -/
  faultPc : s.halted = true → s.faultPc = s.pc

/-- The fields of `10_state.md` R41 after reset, for the parameters `p`, with the blank display presented once
(`70_reset_and_hazards.md` R260). -/
structure AtReset (p : Params) (s : State) : Prop where
  regs : ∀ x, s.reg x = 0
  i : s.i = 0
  pc : s.pc = 0x200
  sp : s.sp = 0
  dt : s.dt = 0
  st : s.st = 0
  tdiv : s.tdiv = 0
  stackBytes : ∀ a, a < 0x20 → s.byte a = 0
  fontBytes : ∀ k : Fin 80, s.byte (0x20 + k.val) = p.font[k.val]
  otherBytes : ∀ a, 0x70 ≤ a → s.byte a = 0
  rows : ∀ r, r < 32 → s.row r = 0
  halted : s.halted = false
  faultCode : s.faultCode = .none
  faultPc : s.faultPc = 0
  faultOpcode : s.faultOpcode = 0
  params : s.params = p
  drawn : s.drawPort = some s.disp

end Sys2Proof.Machine
end

