-- ==== Sys2Proof/Certificates/Slice0/Obligations.lean ====
section
/-! DEFINITION. Certificates/Slice0/Obligations.lean: the statements for the provers, each from numbered rules of spec/.
A clause that rests on a choice of the model names its log entry. -/

open Sys2Proof Sys2Proof.Machine

/-! ### Reset, boot and the step -/

/-- R41, R260. The state after reset, for any parameters: at `State.reset` with the defaults, and after a reset of any
machine with its own parameters, halted or not. The zeros of V, I, DT and ST are the spec's decision D20 (log 7). -/
def Obligations.ResetState : Prop :=
  AtReset defaultParams State.reset ∧
  ∀ s : State, ∃ t, serve .reset s = .next t ∧ AtReset s.params t

/-- The invariant holds after reset, for any legal parameters; the default ones are legal. -/
def Obligations.ResetMeetsInvariant : Prop :=
  defaultParams.wf = true ∧ ∀ p : Params, p.wf = true → Inv (State.resetWith p)

/-- R263. With nothing loaded, the first step fetches 0x0000, which is UNKNOWN_OPCODE. -/
def Obligations.FirstStepWithNothingLoaded : Prop :=
  ∀ p : Params, step (State.resetWith p) = .next ((State.resetWith p).raise .unknownOpcode 0x0000)

/-- R90, R94, R102. When the machine is not halted and the two bytes at PC decode to an instruction, the step is that
instruction's `exec`, with nothing around it. -/
def Obligations.StepRunsDecodedInstruction : Prop :=
  ∀ (s : State) (i : Instr), s.halted = false → AtPc s i → step s = exec i s

/-- R91, R92. A fetch from above 0xFFE is MEM_RANGE with FAULT_OPCODE 0x0000; otherwise the opcode is the byte at PC
followed by the byte after it; no row means UNKNOWN_OPCODE, and a row means that its instruction executes. -/
def Obligations.FetchAndDecode : Prop :=
  ∀ s : State, s.halted = false →
    (0xFFE < s.pc.toNat → step s = .next (s.raise .memRange 0x0000)) ∧
    (s.pc.toNat ≤ 0xFFE → decodeWord (s.byte s.pc.toNat ++ s.byte (s.pc.toNat + 1)) = none →
      step s = .next (s.raise .unknownOpcode (s.byte s.pc.toNat ++ s.byte (s.pc.toNat + 1)))) ∧
    (∀ i, s.pc.toNat ≤ 0xFFE → decodeWord (s.byte s.pc.toNat ++ s.byte (s.pc.toNat + 1)) = some i →
      step s = exec i s)

/-- R90, R99. A request while halted changes no state, its result is `Halted(FAULT_CODE)`, and it presents no display
buffer. -/
def Obligations.HaltedRequestChangesNothing : Prop :=
  ∀ s : State, s.halted = true →
    ∃ t, step s = .next t ∧ SameMachine s t ∧ t.result = some (.halted s.faultCode) ∧ t.drawPort = none

/-- R224. However many steps are requested, a halted machine answers `Halted(FAULT_CODE)` and stays as it is, so a second
fault cannot occur; reset clears the halt, and no other request of the host does. -/
def Obligations.HaltedUntilReset : Prop :=
  ∀ s : State, s.halted = true →
    (∀ k : Nat, ∃ t, Host.Core.run core (k + 1) s = .next t ∧ SameMachine s t ∧
      t.result = some (.halted s.faultCode)) ∧
    (∃ t, serve .reset s = .next t ∧ t.halted = false ∧ t.faultCode = .none) ∧
    ∀ (r : HostRequest) (t : State), r ≠ .reset → serve r s = .next t → t.halted = true

/-- A step request served with `keys` and `rand` is a step of a state of the same machine in which the key sample is
exactly `keys` and the random byte exactly `rand` (R100, R248), with the samples laid out before still to come. The rest is
of the model's own fields (log 3, log 4, log 5), no rule of the spec: whatever a step does, it is counted, its sample is
used up, and a load is no longer allowed; so a served step leaves the queue of samples as it was. -/
def Obligations.StepRequestBookkeeping : Prop :=
  (∀ (s : State) (keys : BitVec 16) (rand : Byte),
    (∃ u, serve (.step keys rand) s = step u ∧ SameMachine s u ∧ u.keys = keys ∧ u.rand = rand ∧
      u.inputs.tail = s.inputs ∧ u.requests = s.requests) ∧
    ∀ t, serve (.step keys rand) s = .next t → t.inputs = s.inputs ∧ t.requests = s.requests + 1) ∧
  ∀ s t : State, step s = .next t →
    t.requests = s.requests + 1 ∧ t.inputs = s.inputs.tail ∧ t.loadOpen = false

/-- R95, R222. A step that faults writes the fault record and nothing else: FAULT_OPCODE is the word at PC, or 0x0000
when the fetch itself faults. -/
def Obligations.FaultIsPrecise : Prop :=
  ∀ (s t : State) (c : FaultCode), s.halted = false → step s = .next t → t.result = some (.fault c) →
    t.halted = true ∧ t.faultCode = c ∧ t.faultPc = s.pc ∧
    (0xFFE < s.pc.toNat → c = .memRange ∧ t.faultOpcode = 0x0000) ∧
    (s.pc.toNat ≤ 0xFFE → t.faultOpcode = s.byte s.pc.toNat ++ s.byte (s.pc.toNat + 1)) ∧
    t.v = s.v ∧ t.pc = s.pc ∧ t.i = s.i ∧ t.sp = s.sp ∧ t.dt = s.dt ∧ t.st = s.st ∧ t.tdiv = s.tdiv ∧
    t.mem = s.mem ∧ t.disp = s.disp ∧ t.params = s.params ∧ t.drawOut = false

/-- R96, R97, R98, R223. Every instruction: the first of its faults in the order of R223 is the one taken, and when it
has none it completes, with PC at the next PC of R96, the timers and the fault record as R98 and R241 say, and the
display presented by 00E0 and Dxyn alone. SP = 1 is no state of the machine for 00EE (log 9). -/
def Obligations.ExecCompletesOrFaults : Prop :=
  ∀ (i : Instr) (s : State), (i = .ret → s.sp.toNat ≠ 1) →
    (∀ c, faultOf s i = some c → exec i s = .next (s.raise c (encode i))) ∧
    (faultOf s i = none →
      ∃ t, exec i s = .next t ∧ Committed s t (nextPc s i) (stagedDt s i) (stagedSt s i) (drawsDisplay i))

/-! ### Encoding -/

/-- Words written out from the patterns of R75: at least one for each of the sixteen top nibbles (R74), for each format of
R72 and for each instruction file of the spec, and words that no row covers (R78). -/
def Obligations.SampleWordsDecode : Prop :=
  (decodeWord 0x00E0 = some .cls ∧ decodeWord 0x00EE = some .ret ∧ decodeWord 0x0123 = none ∧
    decodeWord 0x1234 = some (.jp 0x234) ∧ decodeWord 0x2345 = some (.call 0x345) ∧
    decodeWord 0x3342 = some (.seImm 0x3 0x42) ∧ decodeWord 0x4A5C = some (.sneImm 0xA 0x5C) ∧
    decodeWord 0x5120 = some (.seReg 0x1 0x2) ∧ decodeWord 0x5121 = none ∧
    decodeWord 0x6A2F = some (.ldImm 0xA 0x2F) ∧ decodeWord 0x72FE = some (.addImm 0x2 0xFE)) ∧
  (decodeWord 0x8AB5 = some (.subReg 0xA 0xB) ∧ decodeWord 0x8406 = some (.shrReg 0x4 0x0) ∧
    decodeWord 0x800E = some (.shlReg 0x0 0x0) ∧ decodeWord 0x800F = none ∧
    decodeWord 0x9E70 = some (.sneReg 0xE 0x7) ∧ decodeWord 0x9E71 = none ∧
    decodeWord 0xA2F0 = some (.ldI 0x2F0) ∧ decodeWord 0xB1FF = some (.jpb 0x1FF) ∧
    decodeWord 0xC30F = some (.rnd 0x3 0x0F) ∧ decodeWord 0xD125 = some (.drw 0x1 0x2 0x5)) ∧
  (decodeWord 0xE59E = some (.skp 0x5) ∧ decodeWord 0xE5A1 = some (.sknp 0x5) ∧ decodeWord 0xE09F = none ∧
    decodeWord 0xF307 = some (.ldFromDt 0x3) ∧ decodeWord 0xF50A = some (.ldKey 0x5) ∧
    decodeWord 0xF215 = some (.ldToDt 0x2) ∧ decodeWord 0xF818 = some (.ldToSt 0x8) ∧
    decodeWord 0xF91E = some (.addI 0x9) ∧ decodeWord 0xF129 = some (.ldFont 0x1) ∧
    decodeWord 0xFA33 = some (.bcd 0xA) ∧ decodeWord 0xFF55 = some (.storeRegs 0xF) ∧
    decodeWord 0xF265 = some (.loadRegs 0x2) ∧ decodeWord 0xF000 = none)

/-- The decoder reads every instruction back from its bytes, every operand at every value, whatever follows. -/
def Obligations.DecodeOfEncode : Prop :=
  ∀ (i : Instr) (rest : List Byte), i.wellFormed = true → decode (encodeBytes i ++ rest) = .ok (i, rest)

/-- A word that decodes is the word of its instruction: the decoder drops no bit. -/
def Obligations.EncodeOfDecode : Prop :=
  ∀ (op : Opcode) (i : Instr), decodeWord op = some i → encode i = op

/-- R75, R77, R78. At most one row of the opcode map covers a word; an instruction is decoded only by its own row; and
exactly the words that no row covers are refused. -/
def Obligations.DecoderFollowsOpcodeMap : Prop :=
  ∀ op : Opcode,
    (∀ r ∈ opcodeMap, ∀ q ∈ opcodeMap, r.covers op = true → q.covers op = true → r = q) ∧
    (∀ i, decodeWord op = some i → ∃ r ∈ opcodeMap, r.mnemonic = i.mnemonic ∧ r.covers op = true) ∧
    (decodeWord op = none ↔ op.legal = false)

/-! ### Control transfer -/

/-- R112, R113. 00EE: underflow on an empty stack; otherwise the popped frame is the next PC, PC_RANGE if it is above
0xFFF, and SP goes down by 2 with every byte of memory as before. Under the invariant the popped address is from 0x202
to 0xFFF, so the second fault cannot happen. -/
def Obligations.ReturnFromSubroutine : Prop :=
  decodeWord 0x00EE = some .ret ∧
  ∀ s : State,
    (s.sp.toNat = 0 → Faults .ret s .stackUnderflow) ∧
    (2 ≤ s.sp.toNat → 0xFFF < nextPc s .ret → Faults .ret s .pcRange) ∧
    (2 ≤ s.sp.toNat → nextPc s .ret ≤ 0xFFF →
      ∃ t, exec .ret s = .next t ∧ t.sp.toNat = s.sp.toNat - 2 ∧ SameRegs s t ∧ SameMemory s t ∧ t.i = s.i ∧
        t.disp = s.disp ∧ Committed s t (nextPc s .ret) s.dt s.st false) ∧
    (Inv s → 2 ≤ s.sp.toNat → 0x202 ≤ nextPc s .ret ∧ nextPc s .ret ≤ 0xFFF)

/-- The model's choice (log 9): 00EE at SP = 1, which the invariant excludes, stops the machine by name. -/
def Obligations.ReturnStopsWhenSpIsOne : Prop :=
  (∀ s : State, s.sp.toNat = 1 → exec .ret s = .fault .popBelowZero) ∧ ∀ s : State, Inv s → s.sp.toNat ≠ 1

/-- R114. 1nnn. -/
def Obligations.JumpToTarget : Prop :=
  ∀ (s : State) (nnn : Addr),
    decodeWord (0x1#4 ++ nnn) = some (.jp nnn) ∧
    (nnn.toNat < 0x200 → Faults (.jp nnn) s .reservedTarget) ∧
    (0x200 ≤ nnn.toNat → ∃ t, exec (.jp nnn) s = .next t ∧ MovesPc s t nnn.toNat)

/-- R116. Bnnn: V0 is not added, whatever it holds. -/
def Obligations.JumpWithoutV0 : Prop :=
  ∀ (s : State) (nnn : Addr),
    decodeWord (0xB#4 ++ nnn) = some (.jpb nnn) ∧
    (nnn.toNat < 0x200 → Faults (.jpb nnn) s .reservedTarget) ∧
    (0x200 ≤ nnn.toNat → ∃ t, exec (.jpb nnn) s = .next t ∧ MovesPc s t nnn.toNat)

/-- R111, R115. 2nnn: its three faults in order; otherwise the advanced PC is pushed, high byte at SP, and every other
byte is as before. -/
def Obligations.CallSubroutine : Prop :=
  ∀ (s : State) (nnn : Addr),
    decodeWord (0x2#4 ++ nnn) = some (.call nnn) ∧
    (32 ≤ s.sp.toNat → Faults (.call nnn) s .stackOverflow) ∧
    (s.sp.toNat < 32 → nnn.toNat < 0x200 → Faults (.call nnn) s .reservedTarget) ∧
    (s.sp.toNat < 32 → 0x200 ≤ nnn.toNat → 0xFFF < s.pc.toNat + 2 → Faults (.call nnn) s .pcRange) ∧
    (s.sp.toNat < 32 → 0x200 ≤ nnn.toNat → s.pc.toNat + 2 ≤ 0xFFF →
      ∃ t, exec (.call nnn) s = .next t ∧
        (t.byte s.sp.toNat).toNat = (s.pc.toNat + 2) / 256 ∧
        (t.byte (s.sp.toNat + 1)).toNat = (s.pc.toNat + 2) % 256 ∧
        (∀ a, a ≠ s.sp.toNat → a ≠ s.sp.toNat + 1 → t.byte a = s.byte a) ∧
        t.sp.toNat = s.sp.toNat + 2 ∧ SameRegs s t ∧ t.i = s.i ∧ t.disp = s.disp ∧
        Committed s t nnn.toNat s.dt s.st false)

/-- R118. Call and return are inverse: whatever runs between them, as long as SP never goes below its value on entry to
the callee, a return from the same SP leaves PC at the call's address plus 2 and SP as before the call. -/
def Obligations.CallThenReturn : Prop :=
  ∀ (s t u v : State) (nnn : Addr), Inv s → s.halted = false → AtPc s (.call nnn) → step s = .next t →
    t.result = some .ok → RunsAbove t.sp.toNat t u → u.sp = t.sp → u.halted = false → AtPc u .ret →
    step u = .next v →
    v.result = some .ok ∧ v.pc.toNat = s.pc.toNat + 2 ∧ v.sp = s.sp

/-! ### Skips -/

/-- R130, R131, R132. 3xkk and 4xkk. -/
def Obligations.SkipOnImmediate : Prop :=
  ∀ (s : State) (x : RegIdx) (kk : Byte),
    decodeWord (0x3#4 ++ x ++ kk) = some (.seImm x kk) ∧
    decodeWord (0x4#4 ++ x ++ kk) = some (.sneImm x kk) ∧
    SkipsOn (.seImm x kk) s (decide (s.reg x = kk)) ∧ SkipsOn (.sneImm x kk) s (decide (s.reg x ≠ kk))

/-- R130, R133, R134. 5xy0 and 9xy0. -/
def Obligations.SkipOnRegisters : Prop :=
  ∀ (s : State) (x y : RegIdx),
    decodeWord (0x5#4 ++ x ++ y ++ 0x0#4) = some (.seReg x y) ∧
    decodeWord (0x9#4 ++ x ++ y ++ 0x0#4) = some (.sneReg x y) ∧
    SkipsOn (.seReg x y) s (decide (s.reg x = s.reg y)) ∧ SkipsOn (.sneReg x y) s (decide (s.reg x ≠ s.reg y))

/-- R130, R135, R136. Ex9E and ExA1: KEY_RANGE above 0xF whatever keys are held, else a skip on this step's sample. -/
def Obligations.SkipOnKey : Prop :=
  ∀ (s : State) (x : RegIdx),
    decodeWord (0xE#4 ++ x ++ 0x9E#8) = some (.skp x) ∧ decodeWord (0xE#4 ++ x ++ 0xA1#8) = some (.sknp x) ∧
    (0xF < (s.reg x).toNat → Faults (.skp x) s .keyRange ∧ Faults (.sknp x) s .keyRange) ∧
    ((s.reg x).toNat ≤ 0xF →
      SkipsOn (.skp x) s (s.keys.getLsbD (s.reg x).toNat) ∧ SkipsOn (.sknp x) s (!s.keys.getLsbD (s.reg x).toNat))

/-! ### Register loads and arithmetic -/

/-- R141. 6xkk. -/
def Obligations.LoadImmediate : Prop :=
  ∀ (s : State) (x : RegIdx) (kk : Byte),
    decodeWord (0x6#4 ++ x ++ kk) = some (.ldImm x kk) ∧
    (s.pc.toNat + 2 ≤ 0xFFF → ∃ t, exec (.ldImm x kk) s = .next t ∧ WritesReg s t x kk) ∧
    (0xFFF < s.pc.toNat + 2 → Faults (.ldImm x kk) s .pcRange)

/-- R142. 7xkk: the sum modulo 256, and no flag. -/
def Obligations.AddImmediate : Prop :=
  ∀ (s : State) (x : RegIdx) (kk : Byte),
    decodeWord (0x7#4 ++ x ++ kk) = some (.addImm x kk) ∧
    (s.pc.toNat + 2 ≤ 0xFFF →
      ∃ t, exec (.addImm x kk) s = .next t ∧ WritesReg s t x (BitVec.ofNat 8 ((s.reg x).toNat + kk.toNat))) ∧
    (0xFFF < s.pc.toNat + 2 → Faults (.addImm x kk) s .pcRange)

/-- R143 to R146. 8xy0 to 8xy3: the copy and the bitwise operations, with no flag. -/
def Obligations.CopyAndLogic : Prop :=
  ∀ (s : State) (x y : RegIdx),
    decodeWord (0x8#4 ++ x ++ y ++ 0x0#4) = some (.ldReg x y) ∧
    decodeWord (0x8#4 ++ x ++ y ++ 0x1#4) = some (.orReg x y) ∧
    decodeWord (0x8#4 ++ x ++ y ++ 0x2#4) = some (.andReg x y) ∧
    decodeWord (0x8#4 ++ x ++ y ++ 0x3#4) = some (.xorReg x y) ∧
    (s.pc.toNat + 2 ≤ 0xFFF →
      (∃ t, exec (.ldReg x y) s = .next t ∧ WritesReg s t x (s.reg y)) ∧
      (∃ t, exec (.orReg x y) s = .next t ∧ WritesReg s t x (s.reg x ||| s.reg y)) ∧
      (∃ t, exec (.andReg x y) s = .next t ∧ WritesReg s t x (s.reg x &&& s.reg y)) ∧
      (∃ t, exec (.xorReg x y) s = .next t ∧ WritesReg s t x (s.reg x ^^^ s.reg y))) ∧
    (0xFFF < s.pc.toNat + 2 →
      Faults (.ldReg x y) s .pcRange ∧ Faults (.orReg x y) s .pcRange ∧ Faults (.andReg x y) s .pcRange ∧
      Faults (.xorReg x y) s .pcRange)

/-- R140, R147. 8xy4: the sum modulo 256, then VF the carry. -/
def Obligations.AddWithCarry : Prop :=
  ∀ (s : State) (x y : RegIdx),
    decodeWord (0x8#4 ++ x ++ y ++ 0x4#4) = some (.addReg x y) ∧
    (s.pc.toNat + 2 ≤ 0xFFF →
      ∃ t, exec (.addReg x y) s = .next t ∧
        WritesRegFlag s t x (((s.reg x).toNat + (s.reg y).toNat) % 256)
          (0xFF < (s.reg x).toNat + (s.reg y).toNat)) ∧
    (0xFFF < s.pc.toNat + 2 → Faults (.addReg x y) s .pcRange)

/-- R140, R148, R150. 8xy5 and 8xy7: the difference modulo 256, then VF = 1 exactly when there is no borrow. -/
def Obligations.SubtractWithNotBorrow : Prop :=
  ∀ (s : State) (x y : RegIdx),
    decodeWord (0x8#4 ++ x ++ y ++ 0x5#4) = some (.subReg x y) ∧
    decodeWord (0x8#4 ++ x ++ y ++ 0x7#4) = some (.subnReg x y) ∧
    (s.pc.toNat + 2 ≤ 0xFFF →
      (∃ t, exec (.subReg x y) s = .next t ∧
        WritesRegFlag s t x (((s.reg x).toNat + 256 - (s.reg y).toNat) % 256)
          ((s.reg y).toNat ≤ (s.reg x).toNat)) ∧
      (∃ t, exec (.subnReg x y) s = .next t ∧
        WritesRegFlag s t x (((s.reg y).toNat + 256 - (s.reg x).toNat) % 256)
          ((s.reg x).toNat ≤ (s.reg y).toNat))) ∧
    (0xFFF < s.pc.toNat + 2 → Faults (.subReg x y) s .pcRange ∧ Faults (.subnReg x y) s .pcRange)

/-- The source's own wordings of the flags, which R147 and R148 infer to be the same: after 8xy4 the flag is 1 exactly
when the wrapped sum is less than either operand, and after 8xy5 and 8xy7 exactly when the result is at most the minuend.
With VF as the destination the result is lost, so these speak of the other fifteen registers. -/
def Obligations.FlagWordingsAgree : Prop :=
  ∀ (s t : State) (x y : RegIdx), x ≠ flagReg → t.result = some .ok →
    (exec (.addReg x y) s = .next t →
      (t.reg flagReg = 1 ↔ (t.reg x).toNat < (s.reg x).toNat) ∧
      (t.reg flagReg = 1 ↔ (t.reg x).toNat < (s.reg y).toNat)) ∧
    (exec (.subReg x y) s = .next t → (t.reg flagReg = 1 ↔ (t.reg x).toNat ≤ (s.reg x).toNat)) ∧
    (exec (.subnReg x y) s = .next t → (t.reg flagReg = 1 ↔ (t.reg x).toNat ≤ (s.reg y).toNat))

/-- R140, R149, R151. 8xy6 and 8xyE, for both values of `SHIFT_SOURCE`: the source halved or doubled modulo 256, then
VF the bit shifted out. -/
def Obligations.ShiftByOne : Prop :=
  ∀ (s : State) (x y : RegIdx) (b : Byte),
    (s.params.shiftSource = .x → b = s.reg x) → (s.params.shiftSource = .y → b = s.reg y) →
    decodeWord (0x8#4 ++ x ++ y ++ 0x6#4) = some (.shrReg x y) ∧
    decodeWord (0x8#4 ++ x ++ y ++ 0xE#4) = some (.shlReg x y) ∧
    (s.pc.toNat + 2 ≤ 0xFFF →
      (∃ t, exec (.shrReg x y) s = .next t ∧ WritesRegFlag s t x (b.toNat / 2) (b.toNat % 2 = 1)) ∧
      (∃ t, exec (.shlReg x y) s = .next t ∧ WritesRegFlag s t x (b.toNat * 2 % 256) (128 ≤ b.toNat))) ∧
    (0xFFF < s.pc.toNat + 2 → Faults (.shrReg x y) s .pcRange ∧ Faults (.shlReg x y) s .pcRange)

/-- R152. Cxkk: the random input of this step AND the mask, whatever the input is. -/
def Obligations.RandomAndMask : Prop :=
  ∀ (s : State) (x : RegIdx) (kk : Byte),
    decodeWord (0xC#4 ++ x ++ kk) = some (.rnd x kk) ∧
    (s.pc.toNat + 2 ≤ 0xFFF → ∃ t, exec (.rnd x kk) s = .next t ∧ WritesReg s t x (s.rand &&& kk)) ∧
    (0xFFF < s.pc.toNat + 2 → Faults (.rnd x kk) s .pcRange)

/-! ### The index register and memory transfers -/

/-- R171. Annn. -/
def Obligations.LoadIndex : Prop :=
  ∀ (s : State) (nnn : Addr),
    decodeWord (0xA#4 ++ nnn) = some (.ldI nnn) ∧
    (s.pc.toNat + 2 ≤ 0xFFF → ∃ t, exec (.ldI nnn) s = .next t ∧ WritesIndex s t nnn.toNat) ∧
    (0xFFF < s.pc.toNat + 2 → Faults (.ldI nnn) s .pcRange)

/-- R172. Fx1E: INDEX_OVERFLOW above 0xFFFF, else the sum; VF is not written. -/
def Obligations.AddToIndex : Prop :=
  ∀ (s : State) (x : RegIdx),
    decodeWord (0xF#4 ++ x ++ 0x1E#8) = some (.addI x) ∧
    (0xFFFF < s.i.toNat + (s.reg x).toNat → Faults (.addI x) s .indexOverflow) ∧
    (s.i.toNat + (s.reg x).toNat ≤ 0xFFFF → 0xFFF < s.pc.toNat + 2 → Faults (.addI x) s .pcRange) ∧
    (s.i.toNat + (s.reg x).toNat ≤ 0xFFFF → s.pc.toNat + 2 ≤ 0xFFF →
      ∃ t, exec (.addI x) s = .next t ∧ WritesIndex s t (s.i.toNat + (s.reg x).toNat))

/-- R173. Fx29: no mask. For a digit, the five bytes at I are the digit's glyph, while the font is as reset left it. -/
def Obligations.PointAtGlyph : Prop :=
  ∀ (s : State) (x : RegIdx),
    decodeWord (0xF#4 ++ x ++ 0x29#8) = some (.ldFont x) ∧
    (s.pc.toNat + 2 ≤ 0xFFF →
      ∃ t, exec (.ldFont x) s = .next t ∧ WritesIndex s t (0x020 + 5 * (s.reg x).toNat) ∧
        (Inv s → (s.reg x).toNat < 16 → ∀ k : Fin 5,
          t.byte (t.i.toNat + k.val) = s.params.font[5 * (s.reg x).toNat + k.val]?.getD 0)) ∧
    (0xFFF < s.pc.toNat + 2 → Faults (.ldFont x) s .pcRange)

/-- R58, R56, R174. Fx33: its faults in order; otherwise the three digits at I, I + 1 and I + 2, every other byte and I
as before. -/
def Obligations.StoreDigits : Prop :=
  ∀ (s : State) (x : RegIdx),
    decodeWord (0xF#4 ++ x ++ 0x33#8) = some (.bcd x) ∧
    (s.i.toNat < 0x200 → Faults (.bcd x) s .reservedWrite) ∧
    (0x200 ≤ s.i.toNat → 0xFFF < s.i.toNat + 2 → Faults (.bcd x) s .memRange) ∧
    (0x200 ≤ s.i.toNat → s.i.toNat + 2 ≤ 0xFFF → 0xFFF < s.pc.toNat + 2 → Faults (.bcd x) s .pcRange) ∧
    (0x200 ≤ s.i.toNat → s.i.toNat + 2 ≤ 0xFFF → s.pc.toNat + 2 ≤ 0xFFF →
      ∃ t, exec (.bcd x) s = .next t ∧
        (t.byte s.i.toNat).toNat = (s.reg x).toNat / 100 ∧
        (t.byte (s.i.toNat + 1)).toNat = (s.reg x).toNat / 10 % 10 ∧
        (t.byte (s.i.toNat + 2)).toNat = (s.reg x).toNat % 10 ∧
        (∀ a, a < s.i.toNat ∨ s.i.toNat + 2 < a → t.byte a = s.byte a) ∧
        SameRegs s t ∧ t.i = s.i ∧ t.sp = s.sp ∧ t.disp = s.disp ∧
        Committed s t (s.pc.toNat + 2) s.dt s.st false)

/-- R56, R58, R175. Fx55: its faults in order; otherwise V0 to V[x] at I on, every other byte as before, and I past
them. -/
def Obligations.StoreRegisters : Prop :=
  ∀ (s : State) (x : RegIdx),
    decodeWord (0xF#4 ++ x ++ 0x55#8) = some (.storeRegs x) ∧
    (s.i.toNat < 0x200 → Faults (.storeRegs x) s .reservedWrite) ∧
    (0x200 ≤ s.i.toNat → 0xFFF < s.i.toNat + x.toNat → Faults (.storeRegs x) s .memRange) ∧
    (0x200 ≤ s.i.toNat → s.i.toNat + x.toNat ≤ 0xFFF → 0xFFF < s.pc.toNat + 2 → Faults (.storeRegs x) s .pcRange) ∧
    (0x200 ≤ s.i.toNat → s.i.toNat + x.toNat ≤ 0xFFF → s.pc.toNat + 2 ≤ 0xFFF →
      ∃ t, exec (.storeRegs x) s = .next t ∧
        (∀ z : RegIdx, z.toNat ≤ x.toNat → t.byte (s.i.toNat + z.toNat) = s.reg z) ∧
        (∀ a, a < s.i.toNat ∨ s.i.toNat + x.toNat < a → t.byte a = s.byte a) ∧
        t.i.toNat = s.i.toNat + x.toNat + 1 ∧ SameRegs s t ∧ t.sp = s.sp ∧ t.disp = s.disp ∧
        Committed s t (s.pc.toNat + 2) s.dt s.st false)

/-- R56, R176. Fx65: MEM_RANGE past 0xFFF, no guard below 0x200; otherwise V0 to V[x] from I on, the other registers and
memory as before, and I past them. -/
def Obligations.LoadRegisters : Prop :=
  ∀ (s : State) (x : RegIdx),
    decodeWord (0xF#4 ++ x ++ 0x65#8) = some (.loadRegs x) ∧
    (0xFFF < s.i.toNat + x.toNat → Faults (.loadRegs x) s .memRange) ∧
    (s.i.toNat + x.toNat ≤ 0xFFF → 0xFFF < s.pc.toNat + 2 → Faults (.loadRegs x) s .pcRange) ∧
    (s.i.toNat + x.toNat ≤ 0xFFF → s.pc.toNat + 2 ≤ 0xFFF →
      ∃ t, exec (.loadRegs x) s = .next t ∧
        (∀ z : RegIdx, z.toNat ≤ x.toNat → t.reg z = s.byte (s.i.toNat + z.toNat)) ∧
        (∀ z : RegIdx, x.toNat < z.toNat → t.reg z = s.reg z) ∧
        t.i.toNat = s.i.toNat + x.toNat + 1 ∧ SameMemory s t ∧ t.sp = s.sp ∧ t.disp = s.disp ∧
        Committed s t (s.pc.toNat + 2) s.dt s.st false)

/-! ### Timers and keys -/

/-- R190, R191. Fx07: DT as it was before this step's writeback. -/
def Obligations.ReadDelayTimer : Prop :=
  ∀ (s : State) (x : RegIdx),
    decodeWord (0xF#4 ++ x ++ 0x07#8) = some (.ldFromDt x) ∧
    (s.pc.toNat + 2 ≤ 0xFFF → ∃ t, exec (.ldFromDt x) s = .next t ∧ WritesReg s t x s.dt) ∧
    (0xFFF < s.pc.toNat + 2 → Faults (.ldFromDt x) s .pcRange)

/-- R190, R193, R194. Fx15 and Fx18: the timer takes `V[x]`, and this step's writeback comes after it. -/
def Obligations.SetTimers : Prop :=
  ∀ (s : State) (x : RegIdx),
    decodeWord (0xF#4 ++ x ++ 0x15#8) = some (.ldToDt x) ∧ decodeWord (0xF#4 ++ x ++ 0x18#8) = some (.ldToSt x) ∧
    (s.pc.toNat + 2 ≤ 0xFFF →
      (∃ t, exec (.ldToDt x) s = .next t ∧ Committed s t (s.pc.toNat + 2) (s.reg x) s.st false ∧
        SameRegs s t ∧ t.i = s.i ∧ t.sp = s.sp ∧ SameMemory s t ∧ t.disp = s.disp) ∧
      (∃ t, exec (.ldToSt x) s = .next t ∧ Committed s t (s.pc.toNat + 2) s.dt (s.reg x) false ∧
        SameRegs s t ∧ t.i = s.i ∧ t.sp = s.sp ∧ SameMemory s t ∧ t.disp = s.disp)) ∧
    (0xFFF < s.pc.toNat + 2 → Faults (.ldToDt x) s .pcRange ∧ Faults (.ldToSt x) s .pcRange)

/-- R192. Fx0A: with no key held the same instruction is at PC again and no register is written; otherwise `V[x]`
receives the first held key of `KEY_ORDER`. -/
def Obligations.KeyWait : Prop :=
  ∀ (s : State) (x : RegIdx),
    decodeWord (0xF#4 ++ x ++ 0x0A#8) = some (.ldKey x) ∧
    ((∀ k ∈ s.params.keyOrder, s.keys.getLsbD k.toNat = false) →
      ∃ t, exec (.ldKey x) s = .next t ∧ MovesPc s t s.pc.toNat) ∧
    ∀ (before after : List Key) (k : Key), s.params.keyOrder = before ++ k :: after →
      (∀ j ∈ before, s.keys.getLsbD j.toNat = false) → s.keys.getLsbD k.toNat = true →
      (s.pc.toNat + 2 ≤ 0xFFF → ∃ t, exec (.ldKey x) s = .next t ∧ WritesReg s t x (k.zeroExtend 8)) ∧
      (0xFFF < s.pc.toNat + 2 → Faults (.ldKey x) s .pcRange)

/-- R101. `is_pressed(k)` is bit `k` of the sample; `pressed_key()` is none exactly when no key is held, and otherwise
it is held and nothing before it in `KEY_ORDER` is. Legal parameters hold every key once, the default order is ascending,
and no step changes the order. -/
def Obligations.PressedKeyIsFirstHeld : Prop :=
  (∀ s : State, s.params.wf = true →
    (∀ k : Key, s.isPressed k.toNat = s.keys.getLsbD k.toNat) ∧
    (s.pressedKey = none ↔ s.keys = 0) ∧
    (∀ k, s.pressedKey = some k ↔
      ∃ before after, s.params.keyOrder = before ++ k :: after ∧ s.keys.getLsbD k.toNat = true ∧
        ∀ j ∈ before, s.keys.getLsbD j.toNat = false) ∧
    ∀ t, step s = .next t → t.params.keyOrder = s.params.keyOrder) ∧
  defaultParams.keyOrder = allKeys

/-- R241. Every committed step runs the writeback on the timers as its instruction left them, every Fx0A retry included;
a step that faults and a request while halted do not; and TDIV is 0 at reset. -/
def Obligations.TimerWriteback : Prop :=
  (∀ s t : State, step s = .next t →
    (t.result = some .ok → ∃ i, AtPc s i ∧ Ticked s t (stagedDt s i) (stagedSt s i)) ∧
    (t.result ≠ some .ok → t.tdiv = s.tdiv ∧ t.dt = s.dt ∧ t.st = s.st)) ∧
  State.reset.tdiv = 0

/-- R240, R241. Over `k` committed steps that set no timer, each timer goes down by one per period, from the phase that
TDIV holds, and never below 0. So DT is 0 once `k` is at least the period times DT. -/
def Obligations.TimersRunDown : Prop :=
  ∀ (k : Nat) (s t : State), s.tdiv < s.params.timerPeriod → QuietRun k s t →
    t.tdiv = (s.tdiv + k) % s.params.timerPeriod ∧
    t.dt.toNat = s.dt.toNat - (s.tdiv + k) / s.params.timerPeriod ∧
    t.st.toNat = s.st.toNat - (s.tdiv + k) / s.params.timerPeriod ∧
    (s.params.timerPeriod * s.dt.toNat ≤ k → t.dt = 0)

/-! ### The display -/

/-- R201. 00E0: every pixel off, the buffer presented, nothing else written. -/
def Obligations.ClearDisplay : Prop :=
  decodeWord 0x00E0 = some .cls ∧
  ∀ s : State,
    (s.pc.toNat + 2 ≤ 0xFFF →
      ∃ t, exec .cls s = .next t ∧ (∀ r, r < 32 → t.row r = 0) ∧ t.drawPort = some t.disp ∧
        SameRegs s t ∧ t.i = s.i ∧ t.sp = s.sp ∧ SameMemory s t ∧
        Committed s t (s.pc.toNat + 2) s.dt s.st true) ∧
    (0xFFF < s.pc.toNat + 2 → Faults .cls s .pcRange)

/-- R202, R203, R204, R206. Dxyn, pixel by pixel: its faults in order; otherwise a pixel flips exactly when its row is
one of the `n` rows from `V[y]` on and the sprite byte of that row lights its column, VF is 1 exactly when some flipped
pixel was on, and the coordinates are read before VF is written. -/
def Obligations.DrawSprite : Prop :=
  ∀ (s : State) (x y : RegIdx) (n : Nibble),
    decodeWord (0xD#4 ++ x ++ y ++ n) = some (.drw x y n) ∧
    (0 < n.toNat → 0xFFF < s.i.toNat + n.toNat - 1 → Faults (.drw x y n) s .memRange) ∧
    (0 < n.toNat → s.i.toNat + n.toNat - 1 ≤ 0xFFF → 31 < (s.reg y).toNat + n.toNat - 1 →
      Faults (.drw x y n) s .displayRange) ∧
    ((0 < n.toNat → s.i.toNat + n.toNat - 1 ≤ 0xFFF ∧ (s.reg y).toNat + n.toNat - 1 ≤ 31) →
      0xFFF < s.pc.toNat + 2 → Faults (.drw x y n) s .pcRange) ∧
    ((0 < n.toNat → s.i.toNat + n.toNat - 1 ≤ 0xFFF ∧ (s.reg y).toNat + n.toNat - 1 ≤ 31) →
      s.pc.toNat + 2 ≤ 0xFFF →
      ∃ t, exec (.drw x y n) s = .next t ∧
        (∀ c r, c < 64 → r < 32 →
          t.pixel c r = (s.pixel c r ^^
            (decide ((s.reg y).toNat ≤ r ∧ r < (s.reg y).toNat + n.toNat) &&
              spritePixel (s.byte (s.i.toNat + (r - (s.reg y).toNat))) (s.reg x).toNat c))) ∧
        ((∃ r c, r < n.toNat ∧ c < 64 ∧ s.pixel c ((s.reg y).toNat + r) = true ∧
            spritePixel (s.byte (s.i.toNat + r)) (s.reg x).toNat c = true) → t.reg flagReg = 1) ∧
        ((¬ ∃ r c, r < n.toNat ∧ c < 64 ∧ s.pixel c ((s.reg y).toNat + r) = true ∧
            spritePixel (s.byte (s.i.toNat + r)) (s.reg x).toNat c = true) → t.reg flagReg = 0) ∧
        (∀ z, z ≠ flagReg → t.reg z = s.reg z) ∧
        t.i = s.i ∧ t.sp = s.sp ∧ SameMemory s t ∧ t.drawPort = some t.disp ∧
        Committed s t (s.pc.toNat + 2) s.dt s.st true)

/-- R207. Dxy0 draws no row and reads no memory, so it cannot fault but with PC_RANGE; VF becomes 0 and the buffer is
presented. -/
def Obligations.DrawZeroRows : Prop :=
  ∀ (s : State) (x y : RegIdx),
    (s.pc.toNat + 2 ≤ 0xFFF →
      ∃ t, exec (.drw x y 0) s = .next t ∧ t.disp = s.disp ∧ t.reg flagReg = 0 ∧ t.drawPort = some t.disp) ∧
    (0xFFF < s.pc.toNat + 2 → Faults (.drw x y 0) s .pcRange)

/-- R205. No wrap-around: a completed Dxyn never changes a pixel left of its column, and with `V[x]` of 64 or more it
changes no pixel and does not collide. -/
def Obligations.HorizontalClipping : Prop :=
  ∀ (s t : State) (x y : RegIdx) (n : Nibble), exec (.drw x y n) s = .next t → t.result = some .ok →
    (∀ c r, r < 32 → c < (s.reg x).toNat → t.pixel c r = s.pixel c r) ∧
    (64 ≤ (s.reg x).toNat → t.disp = s.disp ∧ t.reg flagReg = 0)

/-- R208. Drawing the same sprite twice at the same place restores the display. The second draw sets VF exactly when
some pixel of the sprite within the screen was off before the first; against a blank display that is when the sprite has
any lit pixel within the screen, and the first draw leaves VF = 0. -/
def Obligations.DrawTwiceRestores : Prop :=
  ∀ (s t u v : State) (x y : RegIdx) (n : Nibble),
    exec (.drw x y n) s = .next t → t.result = some .ok →
    u.disp = t.disp → u.i = s.i → u.reg x = s.reg x → u.reg y = s.reg y →
    (∀ r, r < n.toNat → u.byte (s.i.toNat + r) = s.byte (s.i.toNat + r)) →
    exec (.drw x y n) u = .next v → v.result = some .ok →
    v.disp = s.disp ∧
    (v.reg flagReg = 1 ↔ ∃ r c, r < n.toNat ∧ c < 64 ∧ s.pixel c ((s.reg y).toNat + r) = false ∧
      spritePixel (s.byte (s.i.toNat + r)) (s.reg x).toNat c = true) ∧
    ((∀ r, r < 32 → s.row r = 0) → t.reg flagReg = 0)

/-- R200. A committed 00E0 or Dxyn presents the display buffer as it is after the instruction, changed or not; no other
instruction presents it, and no faulting step does. -/
def Obligations.DrawOutputPresented : Prop :=
  ∀ (i : Instr) (s t : State), exec i s = .next t →
    (t.result = some .ok → drawsDisplay i = true → t.drawPort = some t.disp) ∧
    (drawsDisplay i = false → t.drawPort = none) ∧
    (t.result ≠ some .ok → t.drawPort = none)

/-! ### Frames over all instructions -/

/-- R22. Whatever an instruction does, faults included, a general register it may not write is as before. -/
def Obligations.RegisterFrame : Prop :=
  ∀ (i : Instr) (s t : State) (z : RegIdx), exec i s = .next t → mayWriteReg s z i = false → t.reg z = s.reg z

/-- R57, R58. Whatever an instruction does, a byte outside those it may store to is as before. Only 2nnn, Fx33 and Fx55
store at all, at SP, at I, and at I. -/
def Obligations.MemoryFrame : Prop :=
  ∀ (i : Instr) (s t : State) (a : Nat), exec i s = .next t → mayStore s a i = false → t.byte a = s.byte a

/-- R30, R31, R32, R33, R38, R36. Whatever an instruction does: I, SP and the display are as before unless it is one of
those that write them; a step that is not a fault leaves the fault record; and the parameters never change. -/
def Obligations.SpecialRegisterFrame : Prop :=
  ∀ (i : Instr) (s t : State), exec i s = .next t →
    (writesIndexReg i = false → t.i = s.i) ∧ (movesStack i = false → t.sp = s.sp) ∧
    (drawsDisplay i = false → t.disp = s.disp) ∧
    (t.result = some .ok → SameFaultRecord s t ∧ Ticked s t (stagedDt s i) (stagedSt s i)) ∧
    (t.result ≠ some .ok → t.dt = s.dt ∧ t.st = s.st ∧ t.tdiv = s.tdiv ∧ t.pc = s.pc) ∧
    t.params = s.params

/-- R39, R100, R247. Cxkk alone reads the random byte, and Ex9E, ExA1 and Fx0A alone the keys: between two states that
differ in their samples alone, every other instruction does the same to the machine, and a reader does when the input it
reads is the same. -/
def Obligations.InputsReachTheirReadersAlone : Prop :=
  ∀ (i : Instr) (s t : State) (samples : List StepInput) (m : Nat),
    (readsRand i = true → ({ s with inputs := samples, requests := m } : State).rand = s.rand) →
    (readsKeys i = true → ({ s with inputs := samples, requests := m } : State).keys = s.keys) →
    exec i s = .next t →
    ∃ t', exec i { s with inputs := samples, requests := m } = .next t' ∧ SameMachine t t' ∧
      t'.result = t.result ∧ t'.drawOut = t.drawOut

/-! ### Invariants -/

/-- R26, R31, R34, R52, R101, R113, R222. Every step keeps the invariant: the memory form, the stack pointer even and at
most 32, every frame a return address, PC at 0x200 or above, the divider below the period, the font and the reserved
region as reset left them, the fault record consistent. -/
def Obligations.StepKeepsInvariant : Prop :=
  ∀ s t : State, Inv s → step s = .next t → Inv t

/-- R248, R260, R263. Every request of the host keeps the invariant: reset, load and step. -/
def Obligations.HostRequestsKeepInvariant : Prop :=
  ∀ (r : HostRequest) (s t : State), Inv s → serve r s = .next t → Inv t

/-- R90, R99. From every state that meets the invariant a step request has an answer, and the answer is a next state:
`Ok`, `Fault` or `Halted`. No step is refused and none stops the model. -/
def Obligations.StepAlwaysAnswers : Prop :=
  ∀ s : State, Inv s → ∃ t r, step s = .next t ∧ t.result = some r

/-- R52. With SP even, no step changes the font or the reserved zero region, even of a machine where they
do not hold what reset left. -/
def Obligations.LowMemoryNeverChanges : Prop :=
  ∀ (s t : State) (a : Nat), s.sp.toNat % 2 = 0 → step s = .next t → 0x20 ≤ a → a < 0x200 →
    t.byte a = s.byte a

/-! ### Loading, stores and memory -/

/-- R263. A load of at most 3584 bytes after reset and before the first step puts them at 0x200 on and changes nothing
else of the machine; a longer one is refused; after a load or any step a load is refused
(log 15); and a reset allows one again. -/
def Obligations.ProgramLoad : Prop :=
  ∀ (s : State) (image : List Byte),
    (s.loadOpen = true → image.length ≤ 3584 →
      ∃ t, serve (.load image) s = .next t ∧
        (∀ k, k < image.length → t.byte (0x200 + k) = image[k]?.getD 0) ∧
        (∀ a, a < 0x200 ∨ 0x200 + image.length ≤ a → t.byte a = s.byte a) ∧
        SameMachine { s with mem := t.mem } t ∧ t.loadOpen = false) ∧
    (s.loadOpen = true → 3584 < image.length → serve (.load image) s = .refused .imageTooLong) ∧
    (s.loadOpen = false → serve (.load image) s = .refused .loadClosed) ∧
    (∀ t, step s = .next t → t.loadOpen = false) ∧
    ∃ t, serve .reset s = .next t ∧ t.loadOpen = true

/-- R54, R65. Instruction fetch is coherent with stores: after a completed Fx55, a fetch from the bytes it stored reads
them, high byte first. -/
def Obligations.FetchSeesStores : Prop :=
  ∀ (s t : State) (x z w : RegIdx), exec (.storeRegs x) s = .next t → t.result = some .ok →
    w.toNat = z.toNat + 1 → w.toNat ≤ x.toNat → t.pc.toNat = s.i.toNat + z.toNat →
    t.fetch = some (s.reg z ++ s.reg w)

/-- The canonical form of memory: two memories of the same machine that hold the same bytes are the same list. -/
def Obligations.MemoryFormIsUnique : Prop :=
  ∀ s t : State, t.params = s.params → Memory.wf (resetByte s.params) s.mem → Memory.wf (resetByte t.params) t.mem →
    SameMemory s t → t.mem = s.mem
end

