-- ==== Sys2Proof/Laws/Decode.lean ====
section
/-! SUPPORT. Laws/Decode.lean: the fields of a word put together from fields are those fields, and a word put together
from its own fields is that word, for each format of `30_encoding.md` R72. -/

namespace Sys2Proof

section Fields

variable (o x y n : BitVec 4) (kk : Byte) (nnn : Addr) (op : Opcode)

/-! ### The bits of a word put together from fields -/

theorem Opcode.getLsbD_addr (j : Nat) :
    BitVec.getLsbD (w := 16) (o ++ nnn) j = if j < 12 then nnn.getLsbD j else o.getLsbD (j - 12) :=
  BitVec.getLsbD_append (x := o) (y := nnn) (i := j)

theorem Opcode.getLsbD_xkk (j : Nat) :
    BitVec.getLsbD (w := 16) (o ++ x ++ kk) j =
      if j < 8 then kk.getLsbD j else if j - 8 < 4 then x.getLsbD (j - 8) else o.getLsbD (j - 12) := by
  refine (BitVec.getLsbD_append (x := o ++ x) (y := kk) (i := j)).trans ?_
  rw [BitVec.getLsbD_append]; simp [Nat.sub_sub]

theorem Opcode.getLsbD_xyn (j : Nat) :
    BitVec.getLsbD (w := 16) (o ++ x ++ y ++ n) j =
      if j < 4 then n.getLsbD j
      else if j - 4 < 4 then y.getLsbD (j - 4)
      else if j - 8 < 4 then x.getLsbD (j - 8)
      else o.getLsbD (j - 12) := by
  refine (BitVec.getLsbD_append (x := o ++ x ++ y) (y := n) (i := j)).trans ?_
  rw [BitVec.getLsbD_append, BitVec.getLsbD_append]; simp [Nat.sub_sub]

/-! ### The fields of a word put together -/

@[simp] theorem Opcode.o_addr : Opcode.o (o ++ nnn) = o := by
  apply BitVec.eq_of_getLsbD_eq; intro i hi
  simp only [Opcode.o, BitVec.getLsbD_extractLsb', Opcode.getLsbD_addr]
  interval_cases i <;> simp

@[simp] theorem Opcode.nnn_addr : Opcode.nnn (o ++ nnn) = nnn := by
  apply BitVec.eq_of_getLsbD_eq; intro i hi
  simp [Opcode.nnn, Opcode.getLsbD_addr, hi]

@[simp] theorem Opcode.o_xkk : Opcode.o (o ++ x ++ kk) = o := by
  apply BitVec.eq_of_getLsbD_eq; intro i hi
  simp only [Opcode.o, BitVec.getLsbD_extractLsb', Opcode.getLsbD_xkk]
  interval_cases i <;> simp

@[simp] theorem Opcode.x_xkk : Opcode.x (o ++ x ++ kk) = x := by
  apply BitVec.eq_of_getLsbD_eq; intro i hi
  simp only [Opcode.x, BitVec.getLsbD_extractLsb', Opcode.getLsbD_xkk]
  interval_cases i <;> simp

@[simp] theorem Opcode.kk_xkk : Opcode.kk (o ++ x ++ kk) = kk := by
  apply BitVec.eq_of_getLsbD_eq; intro i hi
  simp [Opcode.kk, Opcode.getLsbD_xkk, hi]

@[simp] theorem Opcode.o_xyn : Opcode.o (o ++ x ++ y ++ n) = o := by
  apply BitVec.eq_of_getLsbD_eq; intro i hi
  simp only [Opcode.o, BitVec.getLsbD_extractLsb', Opcode.getLsbD_xyn]
  interval_cases i <;> simp

@[simp] theorem Opcode.x_xyn : Opcode.x (o ++ x ++ y ++ n) = x := by
  apply BitVec.eq_of_getLsbD_eq; intro i hi
  simp only [Opcode.x, BitVec.getLsbD_extractLsb', Opcode.getLsbD_xyn]
  interval_cases i <;> simp

@[simp] theorem Opcode.y_xyn : Opcode.y (o ++ x ++ y ++ n) = y := by
  apply BitVec.eq_of_getLsbD_eq; intro i hi
  simp only [Opcode.y, BitVec.getLsbD_extractLsb', Opcode.getLsbD_xyn]
  interval_cases i <;> simp

@[simp] theorem Opcode.n_xyn : Opcode.n (o ++ x ++ y ++ n) = n := by
  apply BitVec.eq_of_getLsbD_eq; intro i hi
  simp [Opcode.n, Opcode.getLsbD_xyn, hi]

/-! ### A word put together from its own fields -/

theorem Opcode.eq_addr : op.o ++ op.nnn = op := by
  apply BitVec.eq_of_getLsbD_eq; intro i hi
  rw [Opcode.getLsbD_addr]
  interval_cases i <;> simp [Opcode.o, Opcode.nnn]

theorem Opcode.eq_xkk : op.o ++ op.x ++ op.kk = op := by
  apply BitVec.eq_of_getLsbD_eq; intro i hi
  rw [Opcode.getLsbD_xkk]
  interval_cases i <;> simp [Opcode.o, Opcode.x, Opcode.kk]

theorem Opcode.eq_xyn : op.o ++ op.x ++ op.y ++ op.n = op := by
  apply BitVec.eq_of_getLsbD_eq; intro i hi
  rw [Opcode.getLsbD_xyn]
  interval_cases i <;> simp [Opcode.o, Opcode.x, Opcode.y, Opcode.n]

/-- A word laid out as memory holds it is read back whole (`20_memory.md` R53). -/
theorem Opcode.hi_append_lo : op.hi ++ op.lo = op := by
  apply BitVec.eq_of_getLsbD_eq; intro i hi
  refine (BitVec.getLsbD_append (x := op.hi) (y := op.lo) (i := i)).trans ?_
  interval_cases i <;> simp [Opcode.hi, Opcode.lo]

end Fields

end Sys2Proof
end

