-- ==== Sys2Proof/Laws/Memory.lean ====
section
/-! SUPPORT. Laws/Memory.lean: the laws of memory. A read after a write to the same address gives the byte written, a
write leaves every other address alone, and every operation keeps the canonical form. -/

namespace Sys2Proof.Machine

variable {d : Nat → Byte} {m : Memory} {a z : Nat} {b : Byte}

theorem Memory.read_drop_same : Memory.read d (Memory.drop m a) a = d a := by
  induction m with
  | nil => rfl
  | cons c m ih =>
    simp only [Memory.drop, List.filter_cons] at ih ⊢
    split
    · rename_i h; simp_all [Memory.read]
    · exact ih

theorem Memory.read_drop_other (h : z ≠ a) : Memory.read d (Memory.drop m a) z = Memory.read d m z := by
  induction m with
  | nil => rfl
  | cons c m ih =>
    simp only [Memory.drop, List.filter_cons] at ih ⊢
    split
    · simp only [Memory.read, ih]
    · rename_i hc
      have : c.1 ≠ z := by intro e; apply hc; simp [e, h]
      simp only [Memory.read, if_neg this, ih]

theorem Memory.read_place_same (hm : ∀ c ∈ m, c.1 ≠ a) : Memory.read d (Memory.place a b m) a = b := by
  induction m with
  | nil => simp [Memory.place, Memory.read]
  | cons c m ih =>
    simp only [Memory.place]
    split
    · simp only [Memory.read, if_neg (hm c (by simp))]
      exact ih (fun e he => hm e (by simp [he]))
    · simp [Memory.read]

theorem Memory.read_place_other (h : z ≠ a) : Memory.read d (Memory.place a b m) z = Memory.read d m z := by
  induction m with
  | nil => simp [Memory.place, Memory.read, h.symm]
  | cons c m ih =>
    simp only [Memory.place]
    split
    · simp only [Memory.read, ih]
    · simp [Memory.read, h.symm]

theorem Memory.mem_drop {c : Host.Cell} : c ∈ Memory.drop m a ↔ c ∈ m ∧ c.1 ≠ a := by
  simp [Memory.drop]

/-- A read after a write to the same address gives the byte written. -/
@[simp] theorem Memory.read_write_same : Memory.read d (Memory.write d m a b) a = b := by
  unfold Memory.write
  split
  · rename_i h; rw [Memory.read_drop_same, h]
  · exact Memory.read_place_same (fun c hc => (Memory.mem_drop.mp hc).2)

/-- A write leaves every other address alone. -/
theorem Memory.read_write_other (h : z ≠ a) : Memory.read d (Memory.write d m a b) z = Memory.read d m z := by
  unfold Memory.write
  split
  · exact Memory.read_drop_other h
  · rw [Memory.read_place_other h, Memory.read_drop_other h]

theorem Memory.mem_place {c : Host.Cell} : c ∈ Memory.place a b m ↔ c = (a, b) ∨ c ∈ m := by
  induction m with
  | nil => simp [Memory.place]
  | cons e m ih =>
    simp only [Memory.place]
    split
    · simp only [List.mem_cons, ih]; tauto
    · simp

theorem Memory.wf_nil : Memory.wf d [] := ⟨List.Pairwise.nil, fun _ hc => absurd hc List.not_mem_nil⟩

theorem Memory.wf_drop (h : Memory.wf d m) : Memory.wf d (Memory.drop m a) :=
  ⟨h.1.filter _, fun c hc => h.2 c (Memory.mem_drop.mp hc).1⟩

theorem Memory.pairwise_place (h : List.Pairwise (fun p q : Host.Cell => p.1 < q.1) m) (hm : ∀ c ∈ m, c.1 ≠ a) :
    List.Pairwise (fun p q : Host.Cell => p.1 < q.1) (Memory.place a b m) := by
  induction m with
  | nil => simp [Memory.place]
  | cons c m ih =>
    rw [List.pairwise_cons] at h
    simp only [Memory.place]
    split
    · rename_i hlt
      rw [List.pairwise_cons]
      refine ⟨fun e he => ?_, ih h.2 (fun e he => hm e (by simp [he]))⟩
      rcases Memory.mem_place.mp he with rfl | he
      · exact hlt
      · exact h.1 e he
    · rename_i hge
      have hc := hm c (by simp)
      rw [List.pairwise_cons, List.pairwise_cons]
      refine ⟨fun e he => ?_, h⟩
      rcases List.mem_cons.mp he with rfl | he
      · omega
      · have := h.1 e he; omega

/-- A write inside memory keeps the canonical form. -/
theorem Memory.wf_write (h : Memory.wf d m) (ha : a < memSize) : Memory.wf d (Memory.write d m a b) := by
  unfold Memory.write
  split
  · exact Memory.wf_drop h
  · rename_i hb
    refine ⟨Memory.pairwise_place (Memory.wf_drop h).1 (fun c hc => (Memory.mem_drop.mp hc).2), fun c hc => ?_⟩
    rcases Memory.mem_place.mp hc with rfl | hc
    · exact ⟨ha, hb⟩
    · exact (Memory.wf_drop h).2 c hc

end Sys2Proof.Machine
end

