-- ==== Sys2Proof/Laws/State.lean ====
section
/-! SUPPORT. Laws/State.lean: one lemma per field per named update, and per read through an accessor, each true by
rfl and tagged simp, so that no proof unfolds a record update. -/

namespace Sys2Proof.Machine

variable (s : State)

/-! ### The fields after `State.setReg` -/

@[simp] theorem State.setReg_v (x : RegIdx) (b : Byte) : (s.setReg x b).v = s.v.set x.toNat b x.isLt := rfl
@[simp] theorem State.setReg_pc (x : RegIdx) (b : Byte) : (s.setReg x b).pc = s.pc := rfl
@[simp] theorem State.setReg_i (x : RegIdx) (b : Byte) : (s.setReg x b).i = s.i := rfl
@[simp] theorem State.setReg_sp (x : RegIdx) (b : Byte) : (s.setReg x b).sp = s.sp := rfl
@[simp] theorem State.setReg_dt (x : RegIdx) (b : Byte) : (s.setReg x b).dt = s.dt := rfl
@[simp] theorem State.setReg_st (x : RegIdx) (b : Byte) : (s.setReg x b).st = s.st := rfl
@[simp] theorem State.setReg_tdiv (x : RegIdx) (b : Byte) : (s.setReg x b).tdiv = s.tdiv := rfl
@[simp] theorem State.setReg_mem (x : RegIdx) (b : Byte) : (s.setReg x b).mem = s.mem := rfl
@[simp] theorem State.setReg_disp (x : RegIdx) (b : Byte) : (s.setReg x b).disp = s.disp := rfl
@[simp] theorem State.setReg_halted (x : RegIdx) (b : Byte) : (s.setReg x b).halted = s.halted := rfl
@[simp] theorem State.setReg_faultCode (x : RegIdx) (b : Byte) : (s.setReg x b).faultCode = s.faultCode := rfl
@[simp] theorem State.setReg_faultPc (x : RegIdx) (b : Byte) : (s.setReg x b).faultPc = s.faultPc := rfl
@[simp] theorem State.setReg_faultOpcode (x : RegIdx) (b : Byte) : (s.setReg x b).faultOpcode = s.faultOpcode := rfl
@[simp] theorem State.setReg_params (x : RegIdx) (b : Byte) : (s.setReg x b).params = s.params := rfl
@[simp] theorem State.setReg_inputs (x : RegIdx) (b : Byte) : (s.setReg x b).inputs = s.inputs := rfl
@[simp] theorem State.setReg_requests (x : RegIdx) (b : Byte) : (s.setReg x b).requests = s.requests := rfl
@[simp] theorem State.setReg_result (x : RegIdx) (b : Byte) : (s.setReg x b).result = s.result := rfl
@[simp] theorem State.setReg_drawOut (x : RegIdx) (b : Byte) : (s.setReg x b).drawOut = s.drawOut := rfl
@[simp] theorem State.setReg_loadOpen (x : RegIdx) (b : Byte) : (s.setReg x b).loadOpen = s.loadOpen := rfl
@[simp] theorem State.setReg_byte (x : RegIdx) (b : Byte) (z : Nat) : (s.setReg x b).byte z = s.byte z := rfl
@[simp] theorem State.setReg_row (x : RegIdx) (b : Byte) (z : Nat) : (s.setReg x b).row z = s.row z := rfl

/-! ### The fields after `State.setPc` -/

@[simp] theorem State.setPc_v (a : Addr) : (s.setPc a).v = s.v := rfl
@[simp] theorem State.setPc_pc (a : Addr) : (s.setPc a).pc = a := rfl
@[simp] theorem State.setPc_i (a : Addr) : (s.setPc a).i = s.i := rfl
@[simp] theorem State.setPc_sp (a : Addr) : (s.setPc a).sp = s.sp := rfl
@[simp] theorem State.setPc_dt (a : Addr) : (s.setPc a).dt = s.dt := rfl
@[simp] theorem State.setPc_st (a : Addr) : (s.setPc a).st = s.st := rfl
@[simp] theorem State.setPc_tdiv (a : Addr) : (s.setPc a).tdiv = s.tdiv := rfl
@[simp] theorem State.setPc_mem (a : Addr) : (s.setPc a).mem = s.mem := rfl
@[simp] theorem State.setPc_disp (a : Addr) : (s.setPc a).disp = s.disp := rfl
@[simp] theorem State.setPc_halted (a : Addr) : (s.setPc a).halted = s.halted := rfl
@[simp] theorem State.setPc_faultCode (a : Addr) : (s.setPc a).faultCode = s.faultCode := rfl
@[simp] theorem State.setPc_faultPc (a : Addr) : (s.setPc a).faultPc = s.faultPc := rfl
@[simp] theorem State.setPc_faultOpcode (a : Addr) : (s.setPc a).faultOpcode = s.faultOpcode := rfl
@[simp] theorem State.setPc_params (a : Addr) : (s.setPc a).params = s.params := rfl
@[simp] theorem State.setPc_inputs (a : Addr) : (s.setPc a).inputs = s.inputs := rfl
@[simp] theorem State.setPc_requests (a : Addr) : (s.setPc a).requests = s.requests := rfl
@[simp] theorem State.setPc_result (a : Addr) : (s.setPc a).result = s.result := rfl
@[simp] theorem State.setPc_drawOut (a : Addr) : (s.setPc a).drawOut = s.drawOut := rfl
@[simp] theorem State.setPc_loadOpen (a : Addr) : (s.setPc a).loadOpen = s.loadOpen := rfl
@[simp] theorem State.setPc_reg (a : Addr) (z : RegIdx) : (s.setPc a).reg z = s.reg z := rfl
@[simp] theorem State.setPc_byte (a : Addr) (z : Nat) : (s.setPc a).byte z = s.byte z := rfl
@[simp] theorem State.setPc_row (a : Addr) (z : Nat) : (s.setPc a).row z = s.row z := rfl

/-! ### The fields after `State.setI` -/

@[simp] theorem State.setI_v (w : BitVec 16) : (s.setI w).v = s.v := rfl
@[simp] theorem State.setI_pc (w : BitVec 16) : (s.setI w).pc = s.pc := rfl
@[simp] theorem State.setI_i (w : BitVec 16) : (s.setI w).i = w := rfl
@[simp] theorem State.setI_sp (w : BitVec 16) : (s.setI w).sp = s.sp := rfl
@[simp] theorem State.setI_dt (w : BitVec 16) : (s.setI w).dt = s.dt := rfl
@[simp] theorem State.setI_st (w : BitVec 16) : (s.setI w).st = s.st := rfl
@[simp] theorem State.setI_tdiv (w : BitVec 16) : (s.setI w).tdiv = s.tdiv := rfl
@[simp] theorem State.setI_mem (w : BitVec 16) : (s.setI w).mem = s.mem := rfl
@[simp] theorem State.setI_disp (w : BitVec 16) : (s.setI w).disp = s.disp := rfl
@[simp] theorem State.setI_halted (w : BitVec 16) : (s.setI w).halted = s.halted := rfl
@[simp] theorem State.setI_faultCode (w : BitVec 16) : (s.setI w).faultCode = s.faultCode := rfl
@[simp] theorem State.setI_faultPc (w : BitVec 16) : (s.setI w).faultPc = s.faultPc := rfl
@[simp] theorem State.setI_faultOpcode (w : BitVec 16) : (s.setI w).faultOpcode = s.faultOpcode := rfl
@[simp] theorem State.setI_params (w : BitVec 16) : (s.setI w).params = s.params := rfl
@[simp] theorem State.setI_inputs (w : BitVec 16) : (s.setI w).inputs = s.inputs := rfl
@[simp] theorem State.setI_requests (w : BitVec 16) : (s.setI w).requests = s.requests := rfl
@[simp] theorem State.setI_result (w : BitVec 16) : (s.setI w).result = s.result := rfl
@[simp] theorem State.setI_drawOut (w : BitVec 16) : (s.setI w).drawOut = s.drawOut := rfl
@[simp] theorem State.setI_loadOpen (w : BitVec 16) : (s.setI w).loadOpen = s.loadOpen := rfl
@[simp] theorem State.setI_reg (w : BitVec 16) (z : RegIdx) : (s.setI w).reg z = s.reg z := rfl
@[simp] theorem State.setI_byte (w : BitVec 16) (z : Nat) : (s.setI w).byte z = s.byte z := rfl
@[simp] theorem State.setI_row (w : BitVec 16) (z : Nat) : (s.setI w).row z = s.row z := rfl

/-! ### The fields after `State.setSp` -/

@[simp] theorem State.setSp_v (w : BitVec 6) : (s.setSp w).v = s.v := rfl
@[simp] theorem State.setSp_pc (w : BitVec 6) : (s.setSp w).pc = s.pc := rfl
@[simp] theorem State.setSp_i (w : BitVec 6) : (s.setSp w).i = s.i := rfl
@[simp] theorem State.setSp_sp (w : BitVec 6) : (s.setSp w).sp = w := rfl
@[simp] theorem State.setSp_dt (w : BitVec 6) : (s.setSp w).dt = s.dt := rfl
@[simp] theorem State.setSp_st (w : BitVec 6) : (s.setSp w).st = s.st := rfl
@[simp] theorem State.setSp_tdiv (w : BitVec 6) : (s.setSp w).tdiv = s.tdiv := rfl
@[simp] theorem State.setSp_mem (w : BitVec 6) : (s.setSp w).mem = s.mem := rfl
@[simp] theorem State.setSp_disp (w : BitVec 6) : (s.setSp w).disp = s.disp := rfl
@[simp] theorem State.setSp_halted (w : BitVec 6) : (s.setSp w).halted = s.halted := rfl
@[simp] theorem State.setSp_faultCode (w : BitVec 6) : (s.setSp w).faultCode = s.faultCode := rfl
@[simp] theorem State.setSp_faultPc (w : BitVec 6) : (s.setSp w).faultPc = s.faultPc := rfl
@[simp] theorem State.setSp_faultOpcode (w : BitVec 6) : (s.setSp w).faultOpcode = s.faultOpcode := rfl
@[simp] theorem State.setSp_params (w : BitVec 6) : (s.setSp w).params = s.params := rfl
@[simp] theorem State.setSp_inputs (w : BitVec 6) : (s.setSp w).inputs = s.inputs := rfl
@[simp] theorem State.setSp_requests (w : BitVec 6) : (s.setSp w).requests = s.requests := rfl
@[simp] theorem State.setSp_result (w : BitVec 6) : (s.setSp w).result = s.result := rfl
@[simp] theorem State.setSp_drawOut (w : BitVec 6) : (s.setSp w).drawOut = s.drawOut := rfl
@[simp] theorem State.setSp_loadOpen (w : BitVec 6) : (s.setSp w).loadOpen = s.loadOpen := rfl
@[simp] theorem State.setSp_reg (w : BitVec 6) (z : RegIdx) : (s.setSp w).reg z = s.reg z := rfl
@[simp] theorem State.setSp_byte (w : BitVec 6) (z : Nat) : (s.setSp w).byte z = s.byte z := rfl
@[simp] theorem State.setSp_row (w : BitVec 6) (z : Nat) : (s.setSp w).row z = s.row z := rfl

/-! ### The fields after `State.setDt` -/

@[simp] theorem State.setDt_v (b : Byte) : (s.setDt b).v = s.v := rfl
@[simp] theorem State.setDt_pc (b : Byte) : (s.setDt b).pc = s.pc := rfl
@[simp] theorem State.setDt_i (b : Byte) : (s.setDt b).i = s.i := rfl
@[simp] theorem State.setDt_sp (b : Byte) : (s.setDt b).sp = s.sp := rfl
@[simp] theorem State.setDt_dt (b : Byte) : (s.setDt b).dt = b := rfl
@[simp] theorem State.setDt_st (b : Byte) : (s.setDt b).st = s.st := rfl
@[simp] theorem State.setDt_tdiv (b : Byte) : (s.setDt b).tdiv = s.tdiv := rfl
@[simp] theorem State.setDt_mem (b : Byte) : (s.setDt b).mem = s.mem := rfl
@[simp] theorem State.setDt_disp (b : Byte) : (s.setDt b).disp = s.disp := rfl
@[simp] theorem State.setDt_halted (b : Byte) : (s.setDt b).halted = s.halted := rfl
@[simp] theorem State.setDt_faultCode (b : Byte) : (s.setDt b).faultCode = s.faultCode := rfl
@[simp] theorem State.setDt_faultPc (b : Byte) : (s.setDt b).faultPc = s.faultPc := rfl
@[simp] theorem State.setDt_faultOpcode (b : Byte) : (s.setDt b).faultOpcode = s.faultOpcode := rfl
@[simp] theorem State.setDt_params (b : Byte) : (s.setDt b).params = s.params := rfl
@[simp] theorem State.setDt_inputs (b : Byte) : (s.setDt b).inputs = s.inputs := rfl
@[simp] theorem State.setDt_requests (b : Byte) : (s.setDt b).requests = s.requests := rfl
@[simp] theorem State.setDt_result (b : Byte) : (s.setDt b).result = s.result := rfl
@[simp] theorem State.setDt_drawOut (b : Byte) : (s.setDt b).drawOut = s.drawOut := rfl
@[simp] theorem State.setDt_loadOpen (b : Byte) : (s.setDt b).loadOpen = s.loadOpen := rfl
@[simp] theorem State.setDt_reg (b : Byte) (z : RegIdx) : (s.setDt b).reg z = s.reg z := rfl
@[simp] theorem State.setDt_byte (b : Byte) (z : Nat) : (s.setDt b).byte z = s.byte z := rfl
@[simp] theorem State.setDt_row (b : Byte) (z : Nat) : (s.setDt b).row z = s.row z := rfl

/-! ### The fields after `State.setSt` -/

@[simp] theorem State.setSt_v (b : Byte) : (s.setSt b).v = s.v := rfl
@[simp] theorem State.setSt_pc (b : Byte) : (s.setSt b).pc = s.pc := rfl
@[simp] theorem State.setSt_i (b : Byte) : (s.setSt b).i = s.i := rfl
@[simp] theorem State.setSt_sp (b : Byte) : (s.setSt b).sp = s.sp := rfl
@[simp] theorem State.setSt_dt (b : Byte) : (s.setSt b).dt = s.dt := rfl
@[simp] theorem State.setSt_st (b : Byte) : (s.setSt b).st = b := rfl
@[simp] theorem State.setSt_tdiv (b : Byte) : (s.setSt b).tdiv = s.tdiv := rfl
@[simp] theorem State.setSt_mem (b : Byte) : (s.setSt b).mem = s.mem := rfl
@[simp] theorem State.setSt_disp (b : Byte) : (s.setSt b).disp = s.disp := rfl
@[simp] theorem State.setSt_halted (b : Byte) : (s.setSt b).halted = s.halted := rfl
@[simp] theorem State.setSt_faultCode (b : Byte) : (s.setSt b).faultCode = s.faultCode := rfl
@[simp] theorem State.setSt_faultPc (b : Byte) : (s.setSt b).faultPc = s.faultPc := rfl
@[simp] theorem State.setSt_faultOpcode (b : Byte) : (s.setSt b).faultOpcode = s.faultOpcode := rfl
@[simp] theorem State.setSt_params (b : Byte) : (s.setSt b).params = s.params := rfl
@[simp] theorem State.setSt_inputs (b : Byte) : (s.setSt b).inputs = s.inputs := rfl
@[simp] theorem State.setSt_requests (b : Byte) : (s.setSt b).requests = s.requests := rfl
@[simp] theorem State.setSt_result (b : Byte) : (s.setSt b).result = s.result := rfl
@[simp] theorem State.setSt_drawOut (b : Byte) : (s.setSt b).drawOut = s.drawOut := rfl
@[simp] theorem State.setSt_loadOpen (b : Byte) : (s.setSt b).loadOpen = s.loadOpen := rfl
@[simp] theorem State.setSt_reg (b : Byte) (z : RegIdx) : (s.setSt b).reg z = s.reg z := rfl
@[simp] theorem State.setSt_byte (b : Byte) (z : Nat) : (s.setSt b).byte z = s.byte z := rfl
@[simp] theorem State.setSt_row (b : Byte) (z : Nat) : (s.setSt b).row z = s.row z := rfl

/-! ### The fields after `State.setByte` -/

@[simp] theorem State.setByte_v (a : Nat) (b : Byte) : (s.setByte a b).v = s.v := rfl
@[simp] theorem State.setByte_pc (a : Nat) (b : Byte) : (s.setByte a b).pc = s.pc := rfl
@[simp] theorem State.setByte_i (a : Nat) (b : Byte) : (s.setByte a b).i = s.i := rfl
@[simp] theorem State.setByte_sp (a : Nat) (b : Byte) : (s.setByte a b).sp = s.sp := rfl
@[simp] theorem State.setByte_dt (a : Nat) (b : Byte) : (s.setByte a b).dt = s.dt := rfl
@[simp] theorem State.setByte_st (a : Nat) (b : Byte) : (s.setByte a b).st = s.st := rfl
@[simp] theorem State.setByte_tdiv (a : Nat) (b : Byte) : (s.setByte a b).tdiv = s.tdiv := rfl
@[simp] theorem State.setByte_mem (a : Nat) (b : Byte) : (s.setByte a b).mem = Memory.write (resetByte s.params) s.mem a b := rfl
@[simp] theorem State.setByte_disp (a : Nat) (b : Byte) : (s.setByte a b).disp = s.disp := rfl
@[simp] theorem State.setByte_halted (a : Nat) (b : Byte) : (s.setByte a b).halted = s.halted := rfl
@[simp] theorem State.setByte_faultCode (a : Nat) (b : Byte) : (s.setByte a b).faultCode = s.faultCode := rfl
@[simp] theorem State.setByte_faultPc (a : Nat) (b : Byte) : (s.setByte a b).faultPc = s.faultPc := rfl
@[simp] theorem State.setByte_faultOpcode (a : Nat) (b : Byte) : (s.setByte a b).faultOpcode = s.faultOpcode := rfl
@[simp] theorem State.setByte_params (a : Nat) (b : Byte) : (s.setByte a b).params = s.params := rfl
@[simp] theorem State.setByte_inputs (a : Nat) (b : Byte) : (s.setByte a b).inputs = s.inputs := rfl
@[simp] theorem State.setByte_requests (a : Nat) (b : Byte) : (s.setByte a b).requests = s.requests := rfl
@[simp] theorem State.setByte_result (a : Nat) (b : Byte) : (s.setByte a b).result = s.result := rfl
@[simp] theorem State.setByte_drawOut (a : Nat) (b : Byte) : (s.setByte a b).drawOut = s.drawOut := rfl
@[simp] theorem State.setByte_loadOpen (a : Nat) (b : Byte) : (s.setByte a b).loadOpen = s.loadOpen := rfl
@[simp] theorem State.setByte_reg (a : Nat) (b : Byte) (z : RegIdx) : (s.setByte a b).reg z = s.reg z := rfl
@[simp] theorem State.setByte_row (a : Nat) (b : Byte) (z : Nat) : (s.setByte a b).row z = s.row z := rfl

/-! ### The fields after `State.setRow` -/

@[simp] theorem State.setRow_v (r : Nat) (w : Row) : (s.setRow r w).v = s.v := rfl
@[simp] theorem State.setRow_pc (r : Nat) (w : Row) : (s.setRow r w).pc = s.pc := rfl
@[simp] theorem State.setRow_i (r : Nat) (w : Row) : (s.setRow r w).i = s.i := rfl
@[simp] theorem State.setRow_sp (r : Nat) (w : Row) : (s.setRow r w).sp = s.sp := rfl
@[simp] theorem State.setRow_dt (r : Nat) (w : Row) : (s.setRow r w).dt = s.dt := rfl
@[simp] theorem State.setRow_st (r : Nat) (w : Row) : (s.setRow r w).st = s.st := rfl
@[simp] theorem State.setRow_tdiv (r : Nat) (w : Row) : (s.setRow r w).tdiv = s.tdiv := rfl
@[simp] theorem State.setRow_mem (r : Nat) (w : Row) : (s.setRow r w).mem = s.mem := rfl
@[simp] theorem State.setRow_disp (r : Nat) (w : Row) : (s.setRow r w).disp = s.disp.setIfInBounds r w := rfl
@[simp] theorem State.setRow_halted (r : Nat) (w : Row) : (s.setRow r w).halted = s.halted := rfl
@[simp] theorem State.setRow_faultCode (r : Nat) (w : Row) : (s.setRow r w).faultCode = s.faultCode := rfl
@[simp] theorem State.setRow_faultPc (r : Nat) (w : Row) : (s.setRow r w).faultPc = s.faultPc := rfl
@[simp] theorem State.setRow_faultOpcode (r : Nat) (w : Row) : (s.setRow r w).faultOpcode = s.faultOpcode := rfl
@[simp] theorem State.setRow_params (r : Nat) (w : Row) : (s.setRow r w).params = s.params := rfl
@[simp] theorem State.setRow_inputs (r : Nat) (w : Row) : (s.setRow r w).inputs = s.inputs := rfl
@[simp] theorem State.setRow_requests (r : Nat) (w : Row) : (s.setRow r w).requests = s.requests := rfl
@[simp] theorem State.setRow_result (r : Nat) (w : Row) : (s.setRow r w).result = s.result := rfl
@[simp] theorem State.setRow_drawOut (r : Nat) (w : Row) : (s.setRow r w).drawOut = s.drawOut := rfl
@[simp] theorem State.setRow_loadOpen (r : Nat) (w : Row) : (s.setRow r w).loadOpen = s.loadOpen := rfl
@[simp] theorem State.setRow_reg (r : Nat) (w : Row) (z : RegIdx) : (s.setRow r w).reg z = s.reg z := rfl
@[simp] theorem State.setRow_byte (r : Nat) (w : Row) (z : Nat) : (s.setRow r w).byte z = s.byte z := rfl

/-! ### The fields after `State.clearRows` -/

@[simp] theorem State.clearRows_v : (s.clearRows).v = s.v := rfl
@[simp] theorem State.clearRows_pc : (s.clearRows).pc = s.pc := rfl
@[simp] theorem State.clearRows_i : (s.clearRows).i = s.i := rfl
@[simp] theorem State.clearRows_sp : (s.clearRows).sp = s.sp := rfl
@[simp] theorem State.clearRows_dt : (s.clearRows).dt = s.dt := rfl
@[simp] theorem State.clearRows_st : (s.clearRows).st = s.st := rfl
@[simp] theorem State.clearRows_tdiv : (s.clearRows).tdiv = s.tdiv := rfl
@[simp] theorem State.clearRows_mem : (s.clearRows).mem = s.mem := rfl
@[simp] theorem State.clearRows_disp : (s.clearRows).disp = Vector.replicate 32 0 := rfl
@[simp] theorem State.clearRows_halted : (s.clearRows).halted = s.halted := rfl
@[simp] theorem State.clearRows_faultCode : (s.clearRows).faultCode = s.faultCode := rfl
@[simp] theorem State.clearRows_faultPc : (s.clearRows).faultPc = s.faultPc := rfl
@[simp] theorem State.clearRows_faultOpcode : (s.clearRows).faultOpcode = s.faultOpcode := rfl
@[simp] theorem State.clearRows_params : (s.clearRows).params = s.params := rfl
@[simp] theorem State.clearRows_inputs : (s.clearRows).inputs = s.inputs := rfl
@[simp] theorem State.clearRows_requests : (s.clearRows).requests = s.requests := rfl
@[simp] theorem State.clearRows_result : (s.clearRows).result = s.result := rfl
@[simp] theorem State.clearRows_drawOut : (s.clearRows).drawOut = s.drawOut := rfl
@[simp] theorem State.clearRows_loadOpen : (s.clearRows).loadOpen = s.loadOpen := rfl
@[simp] theorem State.clearRows_reg (z : RegIdx) : (s.clearRows).reg z = s.reg z := rfl
@[simp] theorem State.clearRows_byte (z : Nat) : (s.clearRows).byte z = s.byte z := rfl

/-! ### The fields after `State.answer` -/

@[simp] theorem State.answer_v (r : StepResult) (draw : Bool) : (s.answer r draw).v = s.v := rfl
@[simp] theorem State.answer_pc (r : StepResult) (draw : Bool) : (s.answer r draw).pc = s.pc := rfl
@[simp] theorem State.answer_i (r : StepResult) (draw : Bool) : (s.answer r draw).i = s.i := rfl
@[simp] theorem State.answer_sp (r : StepResult) (draw : Bool) : (s.answer r draw).sp = s.sp := rfl
@[simp] theorem State.answer_dt (r : StepResult) (draw : Bool) : (s.answer r draw).dt = s.dt := rfl
@[simp] theorem State.answer_st (r : StepResult) (draw : Bool) : (s.answer r draw).st = s.st := rfl
@[simp] theorem State.answer_tdiv (r : StepResult) (draw : Bool) : (s.answer r draw).tdiv = s.tdiv := rfl
@[simp] theorem State.answer_mem (r : StepResult) (draw : Bool) : (s.answer r draw).mem = s.mem := rfl
@[simp] theorem State.answer_disp (r : StepResult) (draw : Bool) : (s.answer r draw).disp = s.disp := rfl
@[simp] theorem State.answer_halted (r : StepResult) (draw : Bool) : (s.answer r draw).halted = s.halted := rfl
@[simp] theorem State.answer_faultCode (r : StepResult) (draw : Bool) : (s.answer r draw).faultCode = s.faultCode := rfl
@[simp] theorem State.answer_faultPc (r : StepResult) (draw : Bool) : (s.answer r draw).faultPc = s.faultPc := rfl
@[simp] theorem State.answer_faultOpcode (r : StepResult) (draw : Bool) : (s.answer r draw).faultOpcode = s.faultOpcode := rfl
@[simp] theorem State.answer_params (r : StepResult) (draw : Bool) : (s.answer r draw).params = s.params := rfl
@[simp] theorem State.answer_inputs (r : StepResult) (draw : Bool) : (s.answer r draw).inputs = s.inputs.tail := rfl
@[simp] theorem State.answer_requests (r : StepResult) (draw : Bool) : (s.answer r draw).requests = s.requests + 1 := rfl
@[simp] theorem State.answer_result (r : StepResult) (draw : Bool) : (s.answer r draw).result = some r := rfl
@[simp] theorem State.answer_drawOut (r : StepResult) (draw : Bool) : (s.answer r draw).drawOut = draw := rfl
@[simp] theorem State.answer_loadOpen (r : StepResult) (draw : Bool) : (s.answer r draw).loadOpen = false := rfl
@[simp] theorem State.answer_reg (r : StepResult) (draw : Bool) (z : RegIdx) : (s.answer r draw).reg z = s.reg z := rfl
@[simp] theorem State.answer_byte (r : StepResult) (draw : Bool) (z : Nat) : (s.answer r draw).byte z = s.byte z := rfl
@[simp] theorem State.answer_row (r : StepResult) (draw : Bool) (z : Nat) : (s.answer r draw).row z = s.row z := rfl

/-! ### The fields after `State.raise` -/

@[simp] theorem State.raise_v (c : FaultCode) (op : Opcode) : (s.raise c op).v = s.v := rfl
@[simp] theorem State.raise_pc (c : FaultCode) (op : Opcode) : (s.raise c op).pc = s.pc := rfl
@[simp] theorem State.raise_i (c : FaultCode) (op : Opcode) : (s.raise c op).i = s.i := rfl
@[simp] theorem State.raise_sp (c : FaultCode) (op : Opcode) : (s.raise c op).sp = s.sp := rfl
@[simp] theorem State.raise_dt (c : FaultCode) (op : Opcode) : (s.raise c op).dt = s.dt := rfl
@[simp] theorem State.raise_st (c : FaultCode) (op : Opcode) : (s.raise c op).st = s.st := rfl
@[simp] theorem State.raise_tdiv (c : FaultCode) (op : Opcode) : (s.raise c op).tdiv = s.tdiv := rfl
@[simp] theorem State.raise_mem (c : FaultCode) (op : Opcode) : (s.raise c op).mem = s.mem := rfl
@[simp] theorem State.raise_disp (c : FaultCode) (op : Opcode) : (s.raise c op).disp = s.disp := rfl
@[simp] theorem State.raise_halted (c : FaultCode) (op : Opcode) : (s.raise c op).halted = true := rfl
@[simp] theorem State.raise_faultCode (c : FaultCode) (op : Opcode) : (s.raise c op).faultCode = c := rfl
@[simp] theorem State.raise_faultPc (c : FaultCode) (op : Opcode) : (s.raise c op).faultPc = s.pc := rfl
@[simp] theorem State.raise_faultOpcode (c : FaultCode) (op : Opcode) : (s.raise c op).faultOpcode = op := rfl
@[simp] theorem State.raise_params (c : FaultCode) (op : Opcode) : (s.raise c op).params = s.params := rfl
@[simp] theorem State.raise_inputs (c : FaultCode) (op : Opcode) : (s.raise c op).inputs = s.inputs.tail := rfl
@[simp] theorem State.raise_requests (c : FaultCode) (op : Opcode) : (s.raise c op).requests = s.requests + 1 := rfl
@[simp] theorem State.raise_result (c : FaultCode) (op : Opcode) : (s.raise c op).result = some (.fault c) := rfl
@[simp] theorem State.raise_drawOut (c : FaultCode) (op : Opcode) : (s.raise c op).drawOut = false := rfl
@[simp] theorem State.raise_loadOpen (c : FaultCode) (op : Opcode) : (s.raise c op).loadOpen = false := rfl
@[simp] theorem State.raise_reg (c : FaultCode) (op : Opcode) (z : RegIdx) : (s.raise c op).reg z = s.reg z := rfl
@[simp] theorem State.raise_byte (c : FaultCode) (op : Opcode) (z : Nat) : (s.raise c op).byte z = s.byte z := rfl
@[simp] theorem State.raise_row (c : FaultCode) (op : Opcode) (z : Nat) : (s.raise c op).row z = s.row z := rfl

end Sys2Proof.Machine
end

