-- ==== Sys2Proof/Laws/Ops.lean ====
section
/-! SUPPORT. Laws/Ops.lean: for each shared operation, once, everything it can do. -/

namespace Sys2Proof.Machine

variable {s w : State}

/-! ### Registers, bytes and rows -/

@[simp] theorem State.reg_setReg_same (x : RegIdx) (b : Byte) : (s.setReg x b).reg x = b := by
  simp [State.reg, State.setReg]

theorem State.reg_setReg_other {x z : RegIdx} (b : Byte) (h : z ≠ x) : (s.setReg x b).reg z = s.reg z := by
  have : x.toNat ≠ z.toNat := fun e => h (BitVec.eq_of_toNat_eq e.symm)
  simp [State.reg, State.setReg, this]

theorem State.reg_setReg (x z : RegIdx) (b : Byte) : (s.setReg x b).reg z = if z = x then b else s.reg z := by
  split
  · rename_i h; rw [h, State.reg_setReg_same]
  · exact State.reg_setReg_other b ‹_›

@[simp] theorem State.byte_setByte_same (a : Nat) (b : Byte) : (s.setByte a b).byte a = b :=
  Memory.read_write_same

theorem State.byte_setByte_other {a z : Nat} (b : Byte) (h : z ≠ a) : (s.setByte a b).byte z = s.byte z :=
  Memory.read_write_other h

theorem State.byte_setByte (a z : Nat) (b : Byte) : (s.setByte a b).byte z = if z = a then b else s.byte z := by
  split
  · rename_i h; rw [h, State.byte_setByte_same]
  · exact State.byte_setByte_other b ‹_›

theorem State.row_setRow_same {r : Nat} (v : Row) (h : r < 32) : (s.setRow r v).row r = v := by
  simp [State.row, State.setRow, h]

theorem State.row_setRow_other {r z : Nat} (v : Row) (h : z ≠ r) : (s.setRow r v).row z = s.row z := by
  simp [State.row, State.setRow, Ne.symm h]

@[simp] theorem State.row_clearRows (r : Nat) : s.clearRows.row r = 0 := by
  simp only [State.row, State.clearRows, Vector.getElem?_replicate]
  split <;> rfl

/-- Two displays are the same when all their rows are. -/
theorem State.disp_ext {t : State} (h : ∀ r, r < 32 → t.row r = s.row r) : t.disp = s.disp := by
  ext1 k hk
  simpa [State.row, hk] using h k hk

/-! ### Memory stays canonical -/

/-- A write inside memory keeps the canonical form. -/
theorem State.setByte_wf {a : Nat} (b : Byte) (h : Memory.wf (resetByte s.params) s.mem) (ha : a < memSize) :
    Memory.wf (resetByte s.params) (s.setByte a b).mem :=
  Memory.wf_write h ha

/-! ### Loops over registers and memory -/

/-- A push writes the two bytes at SP, high byte first, and leaves every other byte alone. -/
theorem State.push_byte (w : BitVec 16) (a : Nat) :
    (s.push w).byte a =
      if a = s.sp.toNat + 1 then w.extractLsb' 0 8 else if a = s.sp.toNat then w.extractLsb' 8 8 else s.byte a := by
  simp only [State.push, State.setSp_byte, State.setHalf, State.byte_setByte]

/-- Storing digits writes three bytes and leaves every other byte alone. -/
theorem State.storeDigits_byte (a : Nat) (b : Byte) (z : Nat) :
    (s.storeDigits a b).byte z =
      if z = a + 2 then ones b else if z = a + 1 then tens b else if z = a then hundreds b else s.byte z := by
  simp only [State.storeDigits, State.byte_setByte]

/-- A block store changes memory alone. -/
theorem State.storeFrom_eq (a k : Nat) : s.storeFrom a k = { s with mem := (s.storeFrom a k).mem } := by
  induction k with
  | zero => rfl
  | succ k ih => simp only [State.storeFrom]; rw [ih]; rfl

/-- A block store puts the registers at the addresses from `a` on and leaves every other byte alone. -/
theorem State.storeFrom_byte (a k z : Nat) :
    (s.storeFrom a k).byte z = if a ≤ z ∧ z < a + k then s.reg (BitVec.ofNat 4 (z - a)) else s.byte z := by
  induction k with
  | zero => simp [State.storeFrom]
  | succ k ih =>
    simp only [State.storeFrom, State.byte_setByte, ih]
    by_cases hz : z = a + k
    · subst hz; simp
    · rw [if_neg hz]
      by_cases hr : a ≤ z ∧ z < a + k
      · rw [if_pos hr, if_pos (by omega)]
      · rw [if_neg hr, if_neg (by omega)]

/-- A block store inside memory keeps the canonical form. -/
theorem State.storeFrom_wf (a k : Nat) (h : Memory.wf (resetByte s.params) s.mem) (hk : a + k ≤ memSize) :
    Memory.wf (resetByte s.params) (s.storeFrom a k).mem := by
  induction k with
  | zero => exact h
  | succ k ih =>
    have := ih (by omega)
    have hp : (s.storeFrom a k).params = s.params := by rw [State.storeFrom_eq]
    rw [← hp] at this ⊢
    exact State.setByte_wf _ this (by omega)

/-- A block load changes the registers alone. -/
theorem State.loadFrom_eq (a k : Nat) : s.loadFrom a k = { s with v := (s.loadFrom a k).v } := by
  induction k with
  | zero => rfl
  | succ k ih => simp only [State.loadFrom]; rw [ih]; rfl

/-- A block load of `k` registers fills V0 on from the addresses from `a` on and leaves the others alone. -/
theorem State.loadFrom_reg (a k : Nat) (z : RegIdx) (hk : k ≤ 16) :
    (s.loadFrom a k).reg z = if z.toNat < k then s.byte (a + z.toNat) else s.reg z := by
  induction k with
  | zero => simp [State.loadFrom]
  | succ k ih =>
    have hkn : (BitVec.ofNat 4 k).toNat = k := by simp; omega
    simp only [State.loadFrom, State.reg_setReg, ih (by omega)]
    by_cases hz : z = BitVec.ofNat 4 k
    · rw [if_pos hz, if_pos (by rw [hz, hkn]; omega), hz, hkn]
    · have : z.toNat ≠ k := fun e => hz (BitVec.eq_of_toNat_eq (by rw [hkn, e]))
      rw [if_neg hz]
      by_cases hr : z.toNat < k
      · rw [if_pos hr, if_pos (by omega)]
      · rw [if_neg hr, if_neg (by omega)]

/-! ### Drawing -/

/-- Bit `j` of the reversed byte is bit `7 - j` of the byte (`00_scope.md` R12). -/
theorem bitrev8_getLsbD (b : Byte) {j : Nat} (h : j < 8) : (bitrev8 b).getLsbD j = b.getLsbD (7 - j) := by
  have : j = 0 ∨ j = 1 ∨ j = 2 ∨ j = 3 ∨ j = 4 ∨ j = 5 ∨ j = 6 ∨ j = 7 := by omega
  rcases this with h | h | h | h | h | h | h | h <;> subst h <;>
    (simp only [bitrev8, BitVec.getLsbD_append, BitVec.getLsbD_extractLsb']; simp)

/-- The lane of a sprite byte, pixel by pixel (`46_display.md` R204). -/
theorem lane_getLsbD (b col : Byte) {c : Nat} (h : c < 64) : (lane b col).getLsbD c = spritePixel b col.toNat c := by
  unfold lane spritePixel
  rw [BitVec.getLsbD_shiftLeft]
  simp only [BitVec.truncate_eq_setWidth, BitVec.getLsbD_setWidth]
  by_cases h1 : c < col.toNat
  · simp [h1, show ¬ col.toNat ≤ c by omega]
  by_cases h2 : c < col.toNat + 8
  · rw [bitrev8_getLsbD _ (by omega)]; simp [h1, h2, h, show col.toNat ≤ c by omega]; intro; omega
  · have : (bitrev8 b).getLsbD (c - col.toNat) = false := BitVec.getLsbD_of_ge _ _ (by omega)
    simp [this, h2]

/-- Drawing rows changes the display alone. -/
theorem State.drawRows_eq (col : Byte) (y n : Nat) :
    s.drawRows col y n = { s with disp := (s.drawRows col y n).disp } := by
  induction n with
  | zero => rfl
  | succ n ih => simp only [State.drawRows]; rw [ih]; rfl

/-- Drawing `n` rows from row `y` on XORs each with the lane of its sprite byte and leaves the other rows alone. -/
theorem State.drawRows_row (col : Byte) (y n r : Nat) (h : y + n ≤ 32) :
    (s.drawRows col y n).row r =
      if y ≤ r ∧ r < y + n then s.row r ^^^ lane (s.byte (s.i.toNat + (r - y))) col else s.row r := by
  induction n with
  | zero => rw [if_neg (by omega)]; rfl
  | succ n ih =>
    have hi : (s.drawRows col y n).i = s.i := by rw [State.drawRows_eq]
    have hb (a : Nat) : (s.drawRows col y n).byte a = s.byte a := by rw [State.drawRows_eq]; rfl
    have ih := ih (by omega)
    simp only [State.drawRows, State.drawRow, hi, hb]
    by_cases hr : r = y + n
    · subst hr
      rw [if_neg (by omega)] at ih
      rw [State.row_setRow_same _ (by omega), if_pos (by omega), ih]
      simp
    · rw [State.row_setRow_other _ hr, ih]
      by_cases hr' : y ≤ r ∧ r < y + n
      · rw [if_pos hr', if_pos (by omega)]
      · rw [if_neg hr', if_neg (by omega)]

/-- The collision flag is set exactly when some drawn row meets a lit pixel. -/
theorem State.drawCollides_iff (col : Byte) (y n : Nat) :
    s.drawCollides col y n = true ↔ ∃ r, r < n ∧ s.row (y + r) &&& lane (s.byte (s.i.toNat + r)) col ≠ 0 := by
  induction n with
  | zero => simp [State.drawCollides]
  | succ n ih =>
    simp only [State.drawCollides, Bool.or_eq_true, ih, collides, bne_iff_ne]
    constructor
    · rintro (⟨r, hr, h⟩ | h)
      · exact ⟨r, by omega, h⟩
      · exact ⟨n, by omega, h⟩
    · rintro ⟨r, hr, h⟩
      rcases Nat.lt_succ_iff_lt_or_eq.mp hr with hr | rfl
      · exact .inl ⟨r, hr, h⟩
      · exact .inr h

/-! ### The end of a step -/

theorem decay_toNat (b : Byte) : (decay b).toNat = b.toNat - 1 := by
  unfold decay
  split
  · rename_i h; subst h; rfl
  · rename_i h
    have : b.toNat ≠ 0 := fun e => h (BitVec.eq_of_toNat_eq e)
    have := b.isLt
    simp [BitVec.toNat_sub]; omega

/-- The timer writeback changes TDIV, DT and ST alone. -/
theorem State.timerWriteback_eq :
    s.timerWriteback =
      { s with tdiv := s.timerWriteback.tdiv, dt := s.timerWriteback.dt, st := s.timerWriteback.st } := by
  unfold State.timerWriteback
  split <;> rfl

theorem State.timerWriteback_tdiv : s.timerWriteback.tdiv = (s.tdiv + 1) % s.params.timerPeriod := by
  unfold State.timerWriteback
  split
  · rename_i h; exact h.symm
  · rfl

theorem State.timerWriteback_dt :
    s.timerWriteback.dt.toNat = s.dt.toNat - (if (s.tdiv + 1) % s.params.timerPeriod = 0 then 1 else 0) := by
  unfold State.timerWriteback
  split
  · exact decay_toNat _
  · rfl

theorem State.timerWriteback_st :
    s.timerWriteback.st.toNat = s.st.toNat - (if (s.tdiv + 1) % s.params.timerPeriod = 0 then 1 else 0) := by
  unfold State.timerWriteback
  split
  · exact decay_toNat _
  · rfl

/-- A step whose next PC fits ends in the committed state. -/
theorem State.finish_commit {op : Opcode} {next : Nat} (draw : Bool) (h : next ≤ 0xFFF) :
    s.finish w op next draw = ((w.setPc (BitVec.ofNat 12 next)).timerWriteback).answer .ok draw :=
  if_neg (by omega)

/-- A step whose next PC does not fit is a fault (`40_step.md` R97). -/
theorem State.finish_fault {op : Opcode} {next : Nat} (draw : Bool) (h : 0xFFF < next) :
    s.finish w op next draw = s.raise .pcRange op :=
  if_pos h

section Finish

variable {op : Opcode} {next : Nat} {draw : Bool} (h : next ≤ 0xFFF)
include h

theorem State.finish_v : (s.finish w op next draw).v = w.v := by
  rw [State.finish_commit draw h, State.timerWriteback_eq]; rfl

theorem State.finish_i : (s.finish w op next draw).i = w.i := by
  rw [State.finish_commit draw h, State.timerWriteback_eq]; rfl

theorem State.finish_sp : (s.finish w op next draw).sp = w.sp := by
  rw [State.finish_commit draw h, State.timerWriteback_eq]; rfl

theorem State.finish_mem : (s.finish w op next draw).mem = w.mem := by
  rw [State.finish_commit draw h, State.timerWriteback_eq]; rfl

theorem State.finish_disp : (s.finish w op next draw).disp = w.disp := by
  rw [State.finish_commit draw h, State.timerWriteback_eq]; rfl

theorem State.finish_params : (s.finish w op next draw).params = w.params := by
  rw [State.finish_commit draw h, State.timerWriteback_eq]; rfl

theorem State.finish_reg (z : RegIdx) : (s.finish w op next draw).reg z = w.reg z := by
  simp only [State.reg, State.finish_v h]

theorem State.finish_byte (z : Nat) : (s.finish w op next draw).byte z = w.byte z := by
  simp only [State.byte, State.finish_mem h, State.finish_params h]

theorem State.finish_row (r : Nat) : (s.finish w op next draw).row r = w.row r := by
  simp only [State.row, State.finish_disp h]

/-- What a committed step does beside its writes, for writes `w` that touch none of these fields. -/
theorem State.finish_committed (ht : w.tdiv = s.tdiv) (hp : w.params = s.params) (hr : SameFaultRecord s w) :
    Committed s (s.finish w op next draw) next w.dt w.st draw := by
  rw [State.finish_commit draw h]
  refine ⟨?_, ⟨?_, ?_, ?_⟩, ⟨?_, ?_, ?_, ?_⟩, ?_, ⟨rfl, rfl⟩⟩
  · rw [State.timerWriteback_eq]; simp; omega
  · simp [State.timerWriteback_tdiv, ht, hp]
  · simp [State.timerWriteback_dt, ht, hp]
  · simp [State.timerWriteback_st, ht, hp]
  · rw [State.timerWriteback_eq]; exact hr.halted
  · rw [State.timerWriteback_eq]; exact hr.code
  · rw [State.timerWriteback_eq]; exact hr.pc
  · rw [State.timerWriteback_eq]; exact hr.opcode
  · rw [State.timerWriteback_eq]; exact hp

/-- The model's own fields after a committed step (log 3, log 4, log 5). -/
theorem State.finish_bookkeeping :
    (s.finish w op next draw).requests = w.requests + 1 ∧ (s.finish w op next draw).inputs = w.inputs.tail ∧
      (s.finish w op next draw).loadOpen = false := by
  rw [State.finish_commit draw h, State.timerWriteback_eq]
  exact ⟨rfl, rfl, rfl⟩

end Finish

theorem SameFaultRecord.refl : SameFaultRecord s s := ⟨rfl, rfl, rfl, rfl⟩

/-! ### Loading an image -/

/-- Writing an image changes memory alone. -/
theorem State.writeImage_eq (a : Nat) (image : List Byte) :
    s.writeImage a image = { s with mem := (s.writeImage a image).mem } := by
  induction image generalizing s a with
  | nil => rfl
  | cons b image ih => simp only [State.writeImage]; rw [ih]; rfl

/-- Writing an image puts its bytes from `a` on and leaves every other byte alone. -/
theorem State.writeImage_byte (a : Nat) (image : List Byte) (z : Nat) :
    (s.writeImage a image).byte z = if a ≤ z ∧ z < a + image.length then image[z - a]?.getD 0 else s.byte z := by
  induction image generalizing s a with
  | nil => rw [if_neg (by simp)]; rfl
  | cons b image ih =>
    simp only [State.writeImage, ih, List.length_cons]
    by_cases h1 : z = a
    · subst h1; rw [if_neg (by omega), if_pos (by omega)]; simp
    · rw [State.byte_setByte_other _ h1]
      by_cases h2 : a + 1 ≤ z ∧ z < a + 1 + image.length
      · rw [if_pos h2, if_pos (by omega), show z - a = (z - (a + 1)) + 1 by omega, List.getElem?_cons_succ]
      · rw [if_neg h2, if_neg (by omega)]

/-- Writing an image inside memory keeps the canonical form. -/
theorem State.writeImage_wf (a : Nat) (image : List Byte) (h : Memory.wf (resetByte s.params) s.mem)
    (hk : a + image.length ≤ memSize) : Memory.wf (resetByte s.params) (s.writeImage a image).mem := by
  induction image generalizing s a with
  | nil => exact h
  | cons b image ih =>
    simp only [List.length_cons] at hk
    exact ih (s := s.setByte a b) (a + 1) (State.setByte_wf b h (by omega)) (by omega)

end Sys2Proof.Machine
end

