-- ==== Sys2Proof/Laws/Outcomes.lean ====
section
/-! SUPPORT. Laws/Outcomes.lean: for each way an instruction ends, once, what its end state holds. An instruction's
result statement is one of these applied to its writes. -/

namespace Sys2Proof.Machine

variable {s w : State} {op : Opcode} {next : Nat} {i : Instr}

/-- A commit of writes that touch none of I, SP, memory, the display and the timers. -/
theorem State.finish_registerStep (h : next ≤ 0xFFF) (ht : w.tdiv = s.tdiv) (hp : w.params = s.params)
    (hr : SameFaultRecord s w) (hd : w.dt = s.dt)
    (hs : w.st = s.st) (hi : w.i = s.i) (hsp : w.sp = s.sp) (hm : SameMemory s w) (hv : w.disp = s.disp) :
    RegisterStep s (s.finish w op next false) next where
  committed := by
    have := State.finish_committed (op := op) (draw := false) h ht hp hr
    rwa [hd, hs] at this
  i := by rw [State.finish_i h, hi]
  sp := by rw [State.finish_sp h, hsp]
  memory := fun a => by rw [State.finish_byte h, hm a]
  disp := by rw [State.finish_disp h, hv]

/-- A commit with no writes moves PC alone. -/
theorem State.finish_movesPc (h : next ≤ 0xFFF) : MovesPc s (s.finish s op next false) next :=
  ⟨fun z => State.finish_reg h z,
   State.finish_registerStep h rfl rfl .refl rfl rfl rfl rfl (fun _ => rfl) rfl⟩

/-- A register write that goes on in sequence. -/
theorem State.writeReg_writesReg (x : RegIdx) (r : Byte) (h : s.pc.toNat + 2 ≤ 0xFFF) :
    WritesReg s (s.writeReg op x r) x r := by
  have hq : s.seq ≤ 0xFFF := h
  refine ⟨?_, fun z hz => ?_,
    State.finish_registerStep hq rfl rfl ⟨rfl, rfl, rfl, rfl⟩ rfl rfl rfl rfl (fun _ => rfl) rfl⟩
  · rw [State.writeReg, State.finish_reg hq, State.reg_setReg_same]
  · rw [State.writeReg, State.finish_reg hq, State.reg_setReg_other _ hz]

/-- A result and a flag that go on in sequence. -/
theorem State.writeRegFlag_writesRegFlag (x : RegIdx) {r : Byte} {c : Bool} {k : Nat} {p : Prop}
    (h : s.pc.toNat + 2 ≤ 0xFFF) (hr : r.toNat = k) (hc : c = true ↔ p) :
    WritesRegFlag s (s.writeRegFlag op x r c) x k p := by
  have hq : s.seq ≤ 0xFFF := h
  refine ⟨fun hp => ?_, fun hp => ?_, fun hx => ?_, fun z hz hf => ?_,
    State.finish_registerStep hq rfl rfl ⟨rfl, rfl, rfl, rfl⟩ rfl rfl rfl rfl (fun _ => rfl) rfl⟩
  · rw [State.writeRegFlag, State.finish_reg hq, State.setResultFlag, State.reg_setReg_same, hc.mpr hp]; rfl
  · have : c = false := by simpa [← hc] using hp
    rw [State.writeRegFlag, State.finish_reg hq, State.setResultFlag, State.reg_setReg_same, this]; rfl
  · rw [State.writeRegFlag, State.finish_reg hq, State.setResultFlag, State.reg_setReg_other _ hx,
      State.reg_setReg_same, hr]
  · rw [State.writeRegFlag, State.finish_reg hq, State.setResultFlag, State.reg_setReg_other _ hf,
      State.reg_setReg_other _ hz]

/-- An index write that goes on in sequence. -/
theorem State.finish_writesIndex (v : BitVec 16) {k : Nat} (h : s.pc.toNat + 2 ≤ 0xFFF) (hk : v.toNat = k) :
    WritesIndex s (s.finish (s.setI v) op s.seq false) k := by
  have hq : s.seq ≤ 0xFFF := h
  exact ⟨by rw [State.finish_i hq]; exact hk, fun z => State.finish_reg hq z, State.finish_sp hq,
    fun a => State.finish_byte hq a, State.finish_disp hq,
    State.finish_committed hq rfl rfl ⟨rfl, rfl, rfl, rfl⟩⟩

/-- An instruction that ends in sequence faults at 0xFFE and above. -/
theorem State.finish_seq_fault {draw : Bool} (h : exec i s = .next (s.finish w (encode i) s.seq draw))
    (hn : 0xFFF < s.pc.toNat + 2) : Faults i s .pcRange := by
  have hq : 0xFFF < s.seq := hn
  rw [Faults, h, State.finish_fault draw hq]

/-- Everything a skip can do. -/
theorem State.skip_skipsOn {c : Bool} (h : exec i s = .next (s.skip (encode i) c)) : SkipsOn i s c := by
  have e : (if c then s.pc.toNat + 4 else s.seq) = s.pc.toNat + if c then 4 else 2 := by cases c <;> rfl
  rw [State.skip, e] at h
  exact ⟨fun hn => ⟨_, h, State.finish_movesPc hn⟩, fun hn => by rw [Faults, h, State.finish_fault _ hn]⟩

/-- Everything a jump can do. -/
theorem State.jump_cases (nnn : Addr) :
    (nnn.toNat < 0x200 ∧ s.jump op nnn = s.raise .reservedTarget op) ∨
    (0x200 ≤ nnn.toNat ∧ s.jump op nnn = s.finish s op nnn.toNat false) := by
  by_cases h : nnn.toNat < 0x200
  · exact .inl ⟨h, by simp [State.jump, targetAllowed, h]⟩
  · exact .inr ⟨by omega, by simp [State.jump, targetAllowed, h]⟩

/-- A next PC of 12 bits always fits. -/
theorem addr_fits (nnn : Addr) : nnn.toNat ≤ 0xFFF := by
  have := nnn.isLt
  omega

end Sys2Proof.Machine
end

