-- ==== Sys2Proof/Laws/Exec.lean ====
section
/-! SUPPORT. Laws/Exec.lean: once, everything `exec` and `step` can do. An instruction either takes the first of its own
faults, or it ends its step with the writes that `writesOf` names; every statement over all instructions is a case
analysis of `writesOf`, with no meaning unfolded again. -/

namespace Sys2Proof.Machine

variable {s : State}

/-- The state with an instruction's writes, before PC, timers and ports, when none of its own faults applies. -/
def writesOf (s : State) : Instr → State
  | .cls => s.clearRows
  | .ret => s.dropFrame
  | .call _ => s.push (BitVec.ofNat 16 s.seq)
  | .jp _ | .jpb _ | .seImm _ _ | .sneImm _ _ | .seReg _ _ | .sneReg _ _ | .skp _ | .sknp _ => s
  | .ldImm x kk => s.setReg x kk
  | .addImm x kk => s.setReg x (s.reg x + kk)
  | .ldReg x y => s.setReg x (s.reg y)
  | .orReg x y => s.setReg x (s.reg x ||| s.reg y)
  | .andReg x y => s.setReg x (s.reg x &&& s.reg y)
  | .xorReg x y => s.setReg x (s.reg x ^^^ s.reg y)
  | .addReg x y => s.setResultFlag x (s.reg x + s.reg y) (carry (s.reg x) (s.reg y))
  | .subReg x y => s.setResultFlag x (s.reg x - s.reg y) (notBorrow (s.reg x) (s.reg y))
  | .shrReg x y => s.setResultFlag x (s.shiftOperand x y >>> 1) (lowBit (s.shiftOperand x y))
  | .subnReg x y => s.setResultFlag x (s.reg y - s.reg x) (notBorrow (s.reg y) (s.reg x))
  | .shlReg x y => s.setResultFlag x (s.shiftOperand x y <<< 1) (highBit (s.shiftOperand x y))
  | .ldI nnn => s.setI (nnn.zeroExtend 16)
  | .rnd x kk => s.setReg x (s.rand &&& kk)
  | .drw x y n =>
    (s.drawRows (s.reg x) (s.reg y).toNat n.toNat).setReg flagReg
      (flagByte (s.drawCollides (s.reg x) (s.reg y).toNat n.toNat))
  | .ldFromDt x => s.setReg x s.dt
  | .ldKey x =>
    match s.pressedKey with
    | none => s
    | some k => s.setReg x (k.zeroExtend 8)
  | .ldToDt x => s.setDt (s.reg x)
  | .ldToSt x => s.setSt (s.reg x)
  | .addI x => s.setI (BitVec.ofNat 16 (s.i.toNat + (s.reg x).toNat))
  | .ldFont x => s.setI (glyphAddr (s.reg x))
  | .bcd x => s.storeDigits s.i.toNat (s.reg x)
  | .storeRegs x => (s.storeFrom s.i.toNat (x.toNat + 1)).setI (BitVec.ofNat 16 (s.i.toNat + x.toNat + 1))
  | .loadRegs x => (s.loadFrom s.i.toNat (x.toNat + 1)).setI (BitVec.ofNat 16 (s.i.toNat + x.toNat + 1))

theorem State.half_toNat (a : Nat) : (s.half a).toNat = 256 * (s.byte a).toNat + (s.byte (a + 1)).toNat := by
  rw [State.half, BitVec.toNat_append]
  have := (s.byte (a + 1)).isLt
  rw [← Nat.shiftLeft_add_eq_or_of_lt this, Nat.shiftLeft_eq]
  omega

theorem State.anyKey_eq : s.anyKey = s.pressedKey.isSome := by
  unfold State.anyKey State.pressedKey State.isPressed
  induction s.params.keyOrder with
  | nil => rfl
  | cons k ks ih => cases h : s.keys.getLsbD k.toNat <;> simp_all

/-- An instruction's writes leave TDIV, the parameters, the fault record and the model's own fields, and stage the timers
as `stagedDt` and `stagedSt` say. -/
theorem writesOf_book (s : State) (i : Instr) :
    (writesOf s i).tdiv = s.tdiv ∧ (writesOf s i).params = s.params ∧ SameFaultRecord s (writesOf s i) ∧
      (writesOf s i).requests = s.requests ∧ (writesOf s i).inputs = s.inputs ∧
      (writesOf s i).dt = stagedDt s i ∧ (writesOf s i).st = stagedSt s i := by
  cases i
  case drw x y n =>
    simp only [writesOf]; rw [State.drawRows_eq]; exact ⟨rfl, rfl, ⟨rfl, rfl, rfl, rfl⟩, rfl, rfl, rfl, rfl⟩
  case storeRegs x =>
    simp only [writesOf]; rw [State.storeFrom_eq]; exact ⟨rfl, rfl, ⟨rfl, rfl, rfl, rfl⟩, rfl, rfl, rfl, rfl⟩
  case loadRegs x =>
    simp only [writesOf]; rw [State.loadFrom_eq]; exact ⟨rfl, rfl, ⟨rfl, rfl, rfl, rfl⟩, rfl, rfl, rfl, rfl⟩
  case ldKey x =>
    simp only [writesOf]; split <;> exact ⟨rfl, rfl, ⟨rfl, rfl, rfl, rfl⟩, rfl, rfl, rfl, rfl⟩
  all_goals exact ⟨rfl, rfl, ⟨rfl, rfl, rfl, rfl⟩, rfl, rfl, rfl, rfl⟩

/-- What every instruction that commits does beside its own writes. -/
theorem finish_writesOf_committed (i : Instr) (h : nextPc s i ≤ 0xFFF) :
    Committed s (s.finish (writesOf s i) (encode i) (nextPc s i) (drawsDisplay i)) (nextPc s i) (stagedDt s i)
      (stagedSt s i) (drawsDisplay i) := by
  obtain ⟨h1, h2, h3, _, _, h6, h7⟩ := writesOf_book s i
  have := State.finish_committed (op := encode i) (draw := drawsDisplay i) h h1 h2 h3
  rwa [h6, h7] at this

/-- What `exec` answers, for an instruction and its writes, in one of two ways. -/
def ExecForm (i : Instr) (s : State) : Prop :=
  (∃ c, ownFault s i = some c ∧ exec i s = .next (s.raise c (encode i))) ∨
  (ownFault s i = none ∧
    exec i s = .next (s.finish (writesOf s i) (encode i) (nextPc s i) (drawsDisplay i)))

theorem skip_next (c : Bool) : (s.pc.toNat + if c then 4 else 2) = (if c then s.pc.toNat + 4 else s.seq) := by
  cases c <;> rfl

theorem execForm_ret (h : s.sp.toNat ≠ 1) : ExecForm .ret s := by
  have h1 : s.sp ≠ 1 := fun e => h (by rw [e]; rfl)
  by_cases h0 : s.sp = 0
  · exact .inl ⟨.stackUnderflow, by simp [ownFault, h0], by simp [exec, execRet, h0]⟩
  · have h2 : s.sp.toNat ≠ 0 := fun e => h0 (BitVec.eq_of_toNat_eq e)
    refine .inr ⟨if_neg h2, ?_⟩
    have e : s.topFrame.toNat = nextPc s .ret := by
      rw [State.topFrame, State.half_toNat, nextPc, show s.sp.toNat - 2 + 1 = s.sp.toNat - 1 by omega]
    rw [show exec .ret s = execRet s from rfl, execRet, if_neg h0, if_neg h1, e]; rfl

theorem execForm_jp (nnn : Addr) : ExecForm (.jp nnn) s := by
  rcases State.jump_cases (s := s) (op := encode (.jp nnn)) nnn with ⟨h, e⟩ | ⟨h, e⟩
  · exact .inl ⟨.reservedTarget, if_pos h, by simp only [exec, execJp, e]⟩
  · exact .inr ⟨if_neg (by omega), by simp only [exec, execJp, e]; rfl⟩

theorem execForm_jpb (nnn : Addr) : ExecForm (.jpb nnn) s := by
  rcases State.jump_cases (s := s) (op := encode (.jpb nnn)) nnn with ⟨h, e⟩ | ⟨h, e⟩
  · exact .inl ⟨.reservedTarget, if_pos h, by simp only [exec, execJpb, e]⟩
  · exact .inr ⟨if_neg (by omega), by simp only [exec, execJpb, e]; rfl⟩

theorem execForm_call (nnn : Addr) : ExecForm (.call nnn) s := by
  by_cases h1 : 32 ≤ s.sp.toNat
  · exact .inl ⟨.stackOverflow, by simp [ownFault, h1], by simp [exec, execCall, h1]⟩
  by_cases h2 : nnn.toNat < 0x200
  · exact .inl ⟨.reservedTarget, by simp [ownFault, h1, h2],
      by simp [exec, execCall, h1, targetAllowed, show ¬ 512 ≤ nnn.toNat by omega]⟩
  have h2' : 512 ≤ nnn.toNat := by omega
  by_cases h3 : 0xFFF < s.pc.toNat + 2
  · exact .inl ⟨.pcRange, by simp [ownFault, h1, h2, h3],
      by simp [exec, execCall, h1, targetAllowed, h2', State.seq, h3]⟩
  · exact .inr ⟨by simp [ownFault, h1, h2, h3],
      by simp [exec, execCall, h1, targetAllowed, h2', State.seq, h3, writesOf, nextPc, drawsDisplay]⟩

theorem execForm_skp (x : RegIdx) : ExecForm (.skp x) s := by
  by_cases h : 0xF < (s.reg x).toNat
  · exact .inl ⟨.keyRange, if_pos h, by simp [exec, execSkp, State.skipOnKey, h]⟩
  · refine .inr ⟨if_neg h, ?_⟩
    simp only [nextPc, skip_next]
    simp only [exec, execSkp, State.skipOnKey, if_neg h, State.skip, State.isPressed, beq_true]; rfl

theorem execForm_sknp (x : RegIdx) : ExecForm (.sknp x) s := by
  by_cases h : 0xF < (s.reg x).toNat
  · exact .inl ⟨.keyRange, if_pos h, by simp [exec, execSknp, State.skipOnKey, h]⟩
  · refine .inr ⟨if_neg h, ?_⟩
    simp only [nextPc, skip_next]
    simp [exec, execSknp, State.skipOnKey, h, State.skip, skipHolds, State.isPressed, writesOf, drawsDisplay]

theorem execForm_ldKey (x : RegIdx) : ExecForm (.ldKey x) s := by
  refine .inr ⟨rfl, ?_⟩
  cases hk : s.pressedKey with
  | none => simp [exec, execLdKey, hk, writesOf, nextPc, State.anyKey_eq, drawsDisplay]
  | some k => simp [exec, execLdKey, hk, writesOf, nextPc, State.anyKey_eq, drawsDisplay, State.seq]

theorem execForm_addI (x : RegIdx) : ExecForm (.addI x) s := by
  by_cases h : 0xFFFF < s.i.toNat + (s.reg x).toNat
  · exact .inl ⟨.indexOverflow, if_pos h, by simp [exec, execAddI, h]⟩
  · exact .inr ⟨if_neg h, by simp [exec, execAddI, h, writesOf, nextPc, drawsDisplay, State.seq]⟩

theorem execForm_drw (x y : RegIdx) (n : Nibble) : ExecForm (.drw x y n) s := by
  by_cases h1 : 0 < n.toNat ∧ 0xFFF < s.i.toNat + n.toNat - 1
  · exact .inl ⟨.memRange, if_pos h1, by simp [exec, execDrw, State.indexInRange]; omega⟩
  have e1 : s.indexInRange n.toNat = true := by simp [State.indexInRange]; omega
  by_cases h2 : 0 < n.toNat ∧ 31 < (s.reg y).toNat + n.toNat - 1
  · have e2 : rowsInRange (s.reg y) n.toNat = false := by simp [rowsInRange]; omega
    exact .inl ⟨.displayRange, by simp only [ownFault, if_neg h1, if_pos h2], by simp [exec, execDrw, e1, e2]⟩
  · have e2 : rowsInRange (s.reg y) n.toNat = true := by simp [rowsInRange]; omega
    exact .inr ⟨by simp only [ownFault, if_neg h1, if_neg h2],
      by simp [exec, execDrw, e1, e2, writesOf, nextPc, drawsDisplay, State.seq]⟩

theorem execForm_bcd (x : RegIdx) : ExecForm (.bcd x) s := by
  by_cases h1 : s.i.toNat < 0x200
  · exact .inl ⟨.reservedWrite, if_pos h1,
      by simp [exec, execBcd, State.indexWritable, show ¬ 512 ≤ s.i.toNat by omega]⟩
  have e1 : s.indexWritable = true := by simp [State.indexWritable, programBase]; omega
  by_cases h2 : 0xFFF < s.i.toNat + 2
  · have e2 : s.indexInRange 3 = false := by simp [State.indexInRange]; omega
    exact .inl ⟨.memRange, by simp [ownFault, h1, h2], by simp [exec, execBcd, e1, e2]⟩
  · have e2 : s.indexInRange 3 = true := by simp [State.indexInRange]; omega
    exact .inr ⟨by simp [ownFault, h1, h2],
      by simp [exec, execBcd, e1, e2, writesOf, nextPc, drawsDisplay, State.seq]⟩

theorem execForm_storeRegs (x : RegIdx) : ExecForm (.storeRegs x) s := by
  by_cases h1 : s.i.toNat < 0x200
  · exact .inl ⟨.reservedWrite, if_pos h1,
      by simp [exec, execStoreRegs, State.indexWritable, show ¬ 512 ≤ s.i.toNat by omega]⟩
  have e1 : s.indexWritable = true := by simp [State.indexWritable, programBase]; omega
  by_cases h2 : 0xFFF < s.i.toNat + x.toNat
  · have e2 : s.indexInRange (x.toNat + 1) = false := by simp [State.indexInRange]; omega
    exact .inl ⟨.memRange, by simp [ownFault, h1, h2], by simp [exec, execStoreRegs, e1, e2]⟩
  · have e2 : s.indexInRange (x.toNat + 1) = true := by simp [State.indexInRange]; omega
    exact .inr ⟨by simp [ownFault, h1, h2],
      by simp [exec, execStoreRegs, e1, e2, writesOf, nextPc, drawsDisplay, State.seq]⟩

theorem execForm_loadRegs (x : RegIdx) : ExecForm (.loadRegs x) s := by
  by_cases h2 : 0xFFF < s.i.toNat + x.toNat
  · have e2 : s.indexInRange (x.toNat + 1) = false := by simp [State.indexInRange]; omega
    exact .inl ⟨.memRange, if_pos h2, by simp [exec, execLoadRegs, e2]⟩
  · have e2 : s.indexInRange (x.toNat + 1) = true := by simp [State.indexInRange]; omega
    exact .inr ⟨if_neg h2, by simp [exec, execLoadRegs, e2, writesOf, nextPc, drawsDisplay, State.seq]⟩

/-- Everything `exec` can do, but for 00EE at SP = 1 (log 9). -/
theorem exec_form (i : Instr) (h : i = .ret → s.sp.toNat ≠ 1) : ExecForm i s := by
  cases i
  case ret => exact execForm_ret (h rfl)
  case jp nnn => exact execForm_jp nnn
  case jpb nnn => exact execForm_jpb nnn
  case call nnn => exact execForm_call nnn
  case skp x => exact execForm_skp x
  case sknp x => exact execForm_sknp x
  case ldKey x => exact execForm_ldKey x
  case addI x => exact execForm_addI x
  case drw x y n => exact execForm_drw x y n
  case bcd x => exact execForm_bcd x
  case storeRegs x => exact execForm_storeRegs x
  case loadRegs x => exact execForm_loadRegs x
  case seImm x kk => exact .inr ⟨rfl, by simp only [nextPc, skip_next]; rfl⟩
  case sneImm x kk => exact .inr ⟨rfl, by simp only [nextPc, skip_next]; rfl⟩
  case seReg x y => exact .inr ⟨rfl, by simp only [nextPc, skip_next]; rfl⟩
  case sneReg x y => exact .inr ⟨rfl, by simp only [nextPc, skip_next]; rfl⟩
  all_goals exact .inr ⟨rfl, rfl⟩

/-- Everything `exec` can do when it answers a next state: it takes a fault and writes the record alone, or it commits
its writes. -/
theorem exec_next_cases {i : Instr} {t : State} (h : exec i s = .next t) :
    (∃ c, t = s.raise c (encode i)) ∨
    (nextPc s i ≤ 0xFFF ∧ ownFault s i = none ∧
      t = s.finish (writesOf s i) (encode i) (nextPc s i) (drawsDisplay i)) := by
  have hr : i = .ret → s.sp.toNat ≠ 1 := by
    rintro rfl e
    have h1 : s.sp = 1 := BitVec.eq_of_toNat_eq e
    simp [exec, execRet, h1] at h
  rcases exec_form i hr with ⟨c, _, e⟩ | ⟨ho, e⟩
  · rw [h] at e
    exact .inl ⟨c, Host.Outcome.next.inj e⟩
  · rw [h] at e
    have e := Host.Outcome.next.inj e
    by_cases hn : nextPc s i ≤ 0xFFF
    · exact .inr ⟨hn, ho, e⟩
    · exact .inl ⟨.pcRange, by rw [e, State.finish_fault _ (by omega)]⟩

/-- Everything a step can do when it answers a next state: it was halted, it faulted before execution, or it ran the
instruction at PC. -/
theorem step_next_cases {t : State} (h : step s = .next t) :
    (s.halted = true ∧ t = s.answerHalted) ∨
    (s.halted = false ∧ 0xFFE < s.pc.toNat ∧ t = s.raise .memRange 0) ∨
    (s.halted = false ∧ s.pc.toNat ≤ 0xFFE ∧ decodeWord (s.half s.pc.toNat) = none ∧
      t = s.raise .unknownOpcode (s.half s.pc.toNat)) ∨
    (s.halted = false ∧ s.pc.toNat ≤ 0xFFE ∧ ∃ i, decodeWord (s.half s.pc.toNat) = some i ∧ exec i s = .next t) := by
  cases hh : s.halted with
  | true =>
    simp only [step, State.fetched, hh, if_true] at h
    exact .inl ⟨rfl, (Host.Outcome.next.inj h).symm⟩
  | false =>
    by_cases hp : 0xFFE < s.pc.toNat
    · simp only [step, State.fetched, hh, State.fetch, if_pos hp] at h
      exact .inr (.inl ⟨rfl, hp, (Host.Outcome.next.inj h).symm⟩)
    · simp only [step, State.fetched, hh, State.fetch, if_neg hp] at h
      cases hd : decodeWord (s.half s.pc.toNat) with
      | none =>
        simp only [hd] at h
        exact .inr (.inr (.inl ⟨rfl, by omega, rfl, (Host.Outcome.next.inj h).symm⟩))
      | some i =>
        simp only [hd] at h
        exact .inr (.inr (.inr ⟨rfl, by omega, i, rfl, h⟩))

end Sys2Proof.Machine
end

