-- ==== Sys2Proof/Laws/PerInstr.lean ====
section
/-! SUPPORT. Laws/PerInstr.lean: per instruction, its word is of its own row of the opcode map (`30_encoding.md` R75):
the row that carries its mnemonic covers its encoding, whatever its fields hold. -/

namespace Sys2Proof.Laws.EncodesInRow

/-- The row of the opcode map with this instruction's mnemonic covers its word. -/
def Statement (i : Instr) : Prop := ∃ r ∈ opcodeMap, r.mnemonic = i.mnemonic ∧ r.covers (encode i) = true

/-! ### What each mask keeps of a word put together from fields -/

section Masks

variable (o x y n : BitVec 4) (kk : Byte) (nnn : Addr)

theorem mask_addr : (o ++ nnn) &&& 0xF000#16 = o ++ 0#12 := by
  apply BitVec.eq_of_getLsbD_eq; intro i hi
  rw [BitVec.getLsbD_and, Opcode.getLsbD_addr, Opcode.getLsbD_addr]
  interval_cases i <;> simp

theorem mask_xkk : (o ++ x ++ kk) &&& 0xF000#16 = o ++ 0#12 := by
  apply BitVec.eq_of_getLsbD_eq; intro i hi
  rw [BitVec.getLsbD_and, Opcode.getLsbD_xkk, Opcode.getLsbD_addr]
  interval_cases i <;> simp

theorem mask_xyn : (o ++ x ++ y ++ n) &&& 0xF000#16 = o ++ 0#12 := by
  apply BitVec.eq_of_getLsbD_eq; intro i hi
  rw [BitVec.getLsbD_and, Opcode.getLsbD_xyn, Opcode.getLsbD_addr]
  interval_cases i <;> simp

theorem mask_xys : (o ++ x ++ y ++ n) &&& 0xF00F#16 = o ++ 0#4 ++ 0#4 ++ n := by
  apply BitVec.eq_of_getLsbD_eq; intro i hi
  rw [BitVec.getLsbD_and, Opcode.getLsbD_xyn, Opcode.getLsbD_xyn]
  interval_cases i <;> simp

theorem mask_xs : (o ++ x ++ kk) &&& 0xF0FF#16 = o ++ 0#4 ++ kk := by
  apply BitVec.eq_of_getLsbD_eq; intro i hi
  rw [BitVec.getLsbD_and, Opcode.getLsbD_xkk, Opcode.getLsbD_xkk]
  interval_cases i <;> simp

end Masks

/-- A row of the map whose mask keeps its value of the word. -/
theorem of_mask {i : Instr} (r : OpcodeRow) (hr : r ∈ opcodeMap) (hm : r.mnemonic = i.mnemonic)
    (h : encode i &&& r.mask = r.value) : Statement i :=
  ⟨r, hr, hm, by rw [OpcodeRow.covers, h]; exact beq_self_eq_true _⟩

/-! ### The instructions -/

theorem cls : Statement .cls :=
  of_mask ⟨"00E0", 0x00E0, 0xFFFF⟩ (by decide) rfl (by decide)

theorem ret : Statement .ret :=
  of_mask ⟨"00EE", 0x00EE, 0xFFFF⟩ (by decide) rfl (by decide)

theorem jp (nnn : Addr) : Statement (.jp nnn) :=
  of_mask ⟨"1nnn", 0x1000, 0xF000⟩ (by decide) rfl ((mask_addr ..).trans (by decide))

theorem call (nnn : Addr) : Statement (.call nnn) :=
  of_mask ⟨"2nnn", 0x2000, 0xF000⟩ (by decide) rfl ((mask_addr ..).trans (by decide))

theorem seImm (x : RegIdx) (kk : Byte) : Statement (.seImm x kk) :=
  of_mask ⟨"3xkk", 0x3000, 0xF000⟩ (by decide) rfl ((mask_xkk ..).trans (by decide))

theorem sneImm (x : RegIdx) (kk : Byte) : Statement (.sneImm x kk) :=
  of_mask ⟨"4xkk", 0x4000, 0xF000⟩ (by decide) rfl ((mask_xkk ..).trans (by decide))

theorem seReg (x : RegIdx) (y : RegIdx) : Statement (.seReg x y) :=
  of_mask ⟨"5xy0", 0x5000, 0xF00F⟩ (by decide) rfl ((mask_xys ..).trans (by decide))

theorem ldImm (x : RegIdx) (kk : Byte) : Statement (.ldImm x kk) :=
  of_mask ⟨"6xkk", 0x6000, 0xF000⟩ (by decide) rfl ((mask_xkk ..).trans (by decide))

theorem addImm (x : RegIdx) (kk : Byte) : Statement (.addImm x kk) :=
  of_mask ⟨"7xkk", 0x7000, 0xF000⟩ (by decide) rfl ((mask_xkk ..).trans (by decide))

theorem ldReg (x : RegIdx) (y : RegIdx) : Statement (.ldReg x y) :=
  of_mask ⟨"8xy0", 0x8000, 0xF00F⟩ (by decide) rfl ((mask_xys ..).trans (by decide))

theorem orReg (x : RegIdx) (y : RegIdx) : Statement (.orReg x y) :=
  of_mask ⟨"8xy1", 0x8001, 0xF00F⟩ (by decide) rfl ((mask_xys ..).trans (by decide))

theorem andReg (x : RegIdx) (y : RegIdx) : Statement (.andReg x y) :=
  of_mask ⟨"8xy2", 0x8002, 0xF00F⟩ (by decide) rfl ((mask_xys ..).trans (by decide))

theorem xorReg (x : RegIdx) (y : RegIdx) : Statement (.xorReg x y) :=
  of_mask ⟨"8xy3", 0x8003, 0xF00F⟩ (by decide) rfl ((mask_xys ..).trans (by decide))

theorem addReg (x : RegIdx) (y : RegIdx) : Statement (.addReg x y) :=
  of_mask ⟨"8xy4", 0x8004, 0xF00F⟩ (by decide) rfl ((mask_xys ..).trans (by decide))

theorem subReg (x : RegIdx) (y : RegIdx) : Statement (.subReg x y) :=
  of_mask ⟨"8xy5", 0x8005, 0xF00F⟩ (by decide) rfl ((mask_xys ..).trans (by decide))

theorem shrReg (x : RegIdx) (y : RegIdx) : Statement (.shrReg x y) :=
  of_mask ⟨"8xy6", 0x8006, 0xF00F⟩ (by decide) rfl ((mask_xys ..).trans (by decide))

theorem subnReg (x : RegIdx) (y : RegIdx) : Statement (.subnReg x y) :=
  of_mask ⟨"8xy7", 0x8007, 0xF00F⟩ (by decide) rfl ((mask_xys ..).trans (by decide))

theorem shlReg (x : RegIdx) (y : RegIdx) : Statement (.shlReg x y) :=
  of_mask ⟨"8xyE", 0x800E, 0xF00F⟩ (by decide) rfl ((mask_xys ..).trans (by decide))

theorem sneReg (x : RegIdx) (y : RegIdx) : Statement (.sneReg x y) :=
  of_mask ⟨"9xy0", 0x9000, 0xF00F⟩ (by decide) rfl ((mask_xys ..).trans (by decide))

theorem ldI (nnn : Addr) : Statement (.ldI nnn) :=
  of_mask ⟨"Annn", 0xA000, 0xF000⟩ (by decide) rfl ((mask_addr ..).trans (by decide))

theorem jpb (nnn : Addr) : Statement (.jpb nnn) :=
  of_mask ⟨"Bnnn", 0xB000, 0xF000⟩ (by decide) rfl ((mask_addr ..).trans (by decide))

theorem rnd (x : RegIdx) (kk : Byte) : Statement (.rnd x kk) :=
  of_mask ⟨"Cxkk", 0xC000, 0xF000⟩ (by decide) rfl ((mask_xkk ..).trans (by decide))

theorem drw (x : RegIdx) (y : RegIdx) (n : Nibble) : Statement (.drw x y n) :=
  of_mask ⟨"Dxyn", 0xD000, 0xF000⟩ (by decide) rfl ((mask_xyn ..).trans (by decide))

theorem skp (x : RegIdx) : Statement (.skp x) :=
  of_mask ⟨"Ex9E", 0xE09E, 0xF0FF⟩ (by decide) rfl ((mask_xs ..).trans (by decide))

theorem sknp (x : RegIdx) : Statement (.sknp x) :=
  of_mask ⟨"ExA1", 0xE0A1, 0xF0FF⟩ (by decide) rfl ((mask_xs ..).trans (by decide))

theorem ldFromDt (x : RegIdx) : Statement (.ldFromDt x) :=
  of_mask ⟨"Fx07", 0xF007, 0xF0FF⟩ (by decide) rfl ((mask_xs ..).trans (by decide))

theorem ldKey (x : RegIdx) : Statement (.ldKey x) :=
  of_mask ⟨"Fx0A", 0xF00A, 0xF0FF⟩ (by decide) rfl ((mask_xs ..).trans (by decide))

theorem ldToDt (x : RegIdx) : Statement (.ldToDt x) :=
  of_mask ⟨"Fx15", 0xF015, 0xF0FF⟩ (by decide) rfl ((mask_xs ..).trans (by decide))

theorem ldToSt (x : RegIdx) : Statement (.ldToSt x) :=
  of_mask ⟨"Fx18", 0xF018, 0xF0FF⟩ (by decide) rfl ((mask_xs ..).trans (by decide))

theorem addI (x : RegIdx) : Statement (.addI x) :=
  of_mask ⟨"Fx1E", 0xF01E, 0xF0FF⟩ (by decide) rfl ((mask_xs ..).trans (by decide))

theorem ldFont (x : RegIdx) : Statement (.ldFont x) :=
  of_mask ⟨"Fx29", 0xF029, 0xF0FF⟩ (by decide) rfl ((mask_xs ..).trans (by decide))

theorem bcd (x : RegIdx) : Statement (.bcd x) :=
  of_mask ⟨"Fx33", 0xF033, 0xF0FF⟩ (by decide) rfl ((mask_xs ..).trans (by decide))

theorem storeRegs (x : RegIdx) : Statement (.storeRegs x) :=
  of_mask ⟨"Fx55", 0xF055, 0xF0FF⟩ (by decide) rfl ((mask_xs ..).trans (by decide))

theorem loadRegs (x : RegIdx) : Statement (.loadRegs x) :=
  of_mask ⟨"Fx65", 0xF065, 0xF0FF⟩ (by decide) rfl ((mask_xs ..).trans (by decide))

end Sys2Proof.Laws.EncodesInRow
end

