-- ==== Sys2Proof/Tests/Slice0.lean ====
section
/-! SUPPORT. Tests/Slice0.lean: the model's own tests. Every expected result is taken from the spec: the encodings of
`30_encoding.md` R75 and the vectors of `95_test_vectors.md`, whose ids stand in the comments. The last part shows, for
each statement with hypotheses, a state and operands that meet them, clause by clause at the edges of their ranges. -/

namespace Sys2Proof.Tests

open Sys2Proof Sys2Proof.Machine

/-! ### Helpers -/

/-- The state in a next-state answer; the reset state for any other answer. -/
def ofNext (o : Host.Outcome State Fault Refusal) : State :=
  match o with
  | .next t => t
  | .fault _ => State.reset
  | .refused _ => State.reset

/-- The answer is a next state, and it passes the check. -/
def nextIs (o : Host.Outcome State Fault Refusal) (p : State → Bool) : Bool :=
  match o with
  | .next t => p t
  | .fault _ => false
  | .refused _ => false

/-- One step of `s` with the word `op` at its PC and the inputs `keys` and `rand`, checked. -/
def runs (s : State) (op : Opcode) (keys : BitVec 16) (rand : Byte) (p : State → Bool) : Bool :=
  nextIs (serve (.step keys rand) (s.placeWord op)) p

/-- The same with no key held and `rand = 0`, the vectors' default. -/
def run (s : State) (op : Opcode) (p : State → Bool) : Bool := runs s op 0 0 p

/-- The step faulted with `c` at the address `s` had, on the word `op`, with TDIV as it was. -/
def faultedWith (s : State) (c : FaultCode) (op : Opcode) (t : State) : Bool :=
  t.result == some (.fault c) && t.halted && t.faultCode == c && t.faultPc == s.pc && t.faultOpcode == op &&
    t.pc == s.pc && t.tdiv == s.tdiv

/-- A faulting step with no key held. -/
def faults (s : State) (op : Opcode) (c : FaultCode) : Bool := run s op (faultedWith s c op)

/-- The reset state with other parameters for the shifted register and the key order. -/
def resetY : State := State.resetWith { defaultParams with shiftSource := .y }
def resetDown : State := State.resetWith { defaultParams with keyOrder := allKeys.reverse }

/-! ### Decoding: one word for every constructor, written out from the patterns of `30_encoding.md` R75 -/

theorem test_decode_system : decodeWord 0x00E0 = some .cls ∧ decodeWord 0x00EE = some .ret := by decide

theorem test_decode_control :
    decodeWord 0x1234 = some (.jp 0x234) ∧ decodeWord 0x2300 = some (.call 0x300) ∧
    decodeWord 0xB1FF = some (.jpb 0x1FF) := by decide

theorem test_decode_skips :
    decodeWord 0x3342 = some (.seImm 0x3 0x42) ∧ decodeWord 0x4A5C = some (.sneImm 0xA 0x5C) ∧
    decodeWord 0x5120 = some (.seReg 0x1 0x2) ∧ decodeWord 0x9E70 = some (.sneReg 0xE 0x7) ∧
    decodeWord 0xE59E = some (.skp 0x5) ∧ decodeWord 0xECA1 = some (.sknp 0xC) := by decide

theorem test_decode_loads :
    decodeWord 0x6A2F = some (.ldImm 0xA 0x2F) ∧ decodeWord 0x72FE = some (.addImm 0x2 0xFE) ∧
    decodeWord 0xC30F = some (.rnd 0x3 0x0F) := by decide

theorem test_decode_family_eight :
    decodeWord 0x8010 = some (.ldReg 0x0 0x1) ∧ decodeWord 0x8231 = some (.orReg 0x2 0x3) ∧
    decodeWord 0x8452 = some (.andReg 0x4 0x5) ∧ decodeWord 0x8673 = some (.xorReg 0x6 0x7) ∧
    decodeWord 0x8894 = some (.addReg 0x8 0x9) ∧ decodeWord 0x8AB5 = some (.subReg 0xA 0xB) ∧
    decodeWord 0x8CD6 = some (.shrReg 0xC 0xD) ∧ decodeWord 0x8EF7 = some (.subnReg 0xE 0xF) ∧
    decodeWord 0x841E = some (.shlReg 0x4 0x1) := by decide

theorem test_decode_index :
    decodeWord 0xA2F0 = some (.ldI 0x2F0) ∧ decodeWord 0xF01E = some (.addI 0x0) ∧
    decodeWord 0xF129 = some (.ldFont 0x1) ∧ decodeWord 0xFA33 = some (.bcd 0xA) ∧
    decodeWord 0xFF55 = some (.storeRegs 0xF) ∧ decodeWord 0xF265 = some (.loadRegs 0x2) := by decide

theorem test_decode_timers_keys_display :
    decodeWord 0xF307 = some (.ldFromDt 0x3) ∧ decodeWord 0xF50A = some (.ldKey 0x5) ∧
    decodeWord 0xF215 = some (.ldToDt 0x2) ∧ decodeWord 0xF818 = some (.ldToSt 0x8) ∧
    decodeWord 0xD125 = some (.drw 0x1 0x2 0x5) := by decide

/-- VT3: illegal words, and the two neighbours of 00E0 and 00EE. -/
theorem test_decode_refuses :
    decodeWord 0x0000 = none ∧ decodeWord 0x0123 = none ∧ decodeWord 0x8008 = none ∧ decodeWord 0x800F = none ∧
    decodeWord 0x5121 = none ∧ decodeWord 0x9121 = none ∧ decodeWord 0xE000 = none ∧ decodeWord 0xE09F = none ∧
    decodeWord 0xF000 = none ∧ decodeWord 0xF0FF = none ∧ decodeWord 0x00E1 = none ∧ decodeWord 0x01EE = none := by
  decide

/-- The bytes lie high byte first (`20_memory.md` R53), and one byte alone is refused by name. -/
theorem test_decode_bytes :
    decode [0x6A, 0x2F, 0x77] = .ok (.ldImm 0xA 0x2F, [0x77]) ∧ decode [0x6A] = .error .truncated ∧
    decode [0x51, 0x21] = .error .unknownOpcode ∧ decodeTableWord 16 0xA2F0 = some (.ldI 0x2F0) ∧
    decodeTableWord 16 0x5121 = none := by
  refine ⟨rfl, rfl, rfl, ?_, ?_⟩ <;> decide

theorem test_encode_words :
    encode (.jp 0x234) = 0x1234 ∧ encode (.drw 0x1 0x2 0x5) = 0xD125 ∧ encode (.shlReg 0x4 0x1) = 0x841E ∧
    encode (.storeRegs 0xF) = 0xFF55 ∧ encodeBytes (.ldI 0x2F0) = [0xA2, 0xF0] := by decide

/-! ### Well-formedness: a term that each check refuses, beside one that it takes -/

theorem test_wf_default_params : defaultParams.wf = true := by decide

/-- `TIMER_PERIOD` must be positive (`00_scope.md` R10). -/
theorem test_wf_refuses_period_zero : ({ defaultParams with timerPeriod := 0 } : Params).periodOk = false := by decide

/-- `KEY_ORDER` must hold every key once: a missing key, a repeated key, a key too many. -/
theorem test_wf_refuses_key_orders :
    ({ defaultParams with keyOrder := allKeys.tail } : Params).keyOrderOk = false ∧
    ({ defaultParams with keyOrder := 0x1 :: allKeys.tail } : Params).keyOrderOk = false ∧
    ({ defaultParams with keyOrder := 0x1 :: allKeys } : Params).keyOrderOk = false ∧
    ({ defaultParams with keyOrder := allKeys.reverse } : Params).keyOrderOk = true := by decide

/-- Glyph A is fixed (`10_state.md` R37). -/
theorem test_wf_refuses_other_glyph_a :
    ({ defaultParams with font := defaultFont.set 51 0x91 } : Params).glyphAOk = false ∧
    ({ defaultParams with font := defaultFont.set 51 0x91 } : Params).wf = false ∧
    ({ defaultParams with font := defaultFont.set 49 0x00 } : Params).glyphAOk = true := by decide

/-- Words of no row are illegal (`30_encoding.md` R77); a field has its pattern's width, so no term of `Instr` is. -/
theorem test_wf_words :
    Opcode.legal 0x5121 = false ∧ Opcode.legal 0x800F = false ∧ Opcode.legal 0x5120 = true ∧
    Instr.wellFormed (.drw 0xF 0xF 0xF) = true := by decide

/-- The canonical form of memory refuses cells out of order, twice at one address, past memory, or holding what their
address reads as unlisted. -/
theorem test_wf_memory :
    ¬ Memory.wf (resetByte defaultParams) [(0x301, 1), (0x300, 1)] ∧
    ¬ Memory.wf (resetByte defaultParams) [(0x300, 1), (0x300, 1)] ∧
    ¬ Memory.wf (resetByte defaultParams) [(0x1000, 1)] ∧
    ¬ Memory.wf (resetByte defaultParams) [(0x20, 0xF0)] ∧
    Memory.wf (resetByte defaultParams) [(0x20, 0), (0xFFF, 1)] := by decide

/-! ### Fetch and the step -/

/-- VT1, VT2: the two faults at the top of memory. -/
theorem test_step_top_of_memory :
    faults (State.reset.setPc 0xFFE) 0x6012 .pcRange = true ∧
    nextIs (step (State.reset.setPc 0xFFF)) (faultedWith (State.reset.setPc 0xFFF) .memRange 0x0000) = true := by decide

/-- VT3, VT4: an unknown opcode, then a request while halted. -/
theorem test_step_unknown_then_halted :
    faults State.reset 0x5121 .unknownOpcode = true ∧
    nextIs (step (ofNext (step State.reset)))
      (fun t => t.result == some (.halted .unknownOpcode) && t.pc == 0x200 && t.tdiv == 0 && !t.drawOut) = true := by
  decide

/-- VT5: an odd PC is legal. -/
theorem test_step_odd_pc :
    run (State.reset.setPc 0x203) 0x607F (fun t => t.reg 0x0 == 0x7F && t.pc == 0x205) = true := by decide

/-- The sample that the host lays out is used up, and the request is counted (log 3, log 4). -/
theorem test_step_uses_one_sample :
    nextIs (step { State.reset.placeWord 0xC3FF with inputs := [⟨0, 0x5A⟩, ⟨0, 0x77⟩] })
      (fun t => t.reg 0x3 == 0x5A && t.inputs == [⟨0, 0x77⟩] && t.requests == 1) = true := by decide

/-- A word placed for a halted machine runs, and nothing but memory and HALTED is touched (log 13). -/
theorem test_place_word :
    nextIs (step (({ State.reset with halted := true } : State).withFetchWord 16 0x6A2F))
      (fun t => t.reg 0xA == 0x2F && t.result == some .ok) = true := by decide

/-! ### Control flow -/

/-- VC1, E4. -/
theorem test_call :
    run State.reset 0x2300
      (fun t => t.byte 0 == 0x02 && t.byte 1 == 0x02 && t.sp == 2 && t.pc == 0x300 && t.result == some .ok) = true := by
  decide

/-- VC4 to VC7: the call's faults, in the order of `60_exceptions.md` R223. -/
theorem test_call_faults :
    faults (State.reset.setSp 32) 0x2300 .stackOverflow = true ∧
    faults (State.reset.setSp 32) 0x2100 .stackOverflow = true ∧
    faults State.reset 0x2100 .reservedTarget = true ∧
    faults (State.reset.setPc 0xFFE) 0x2300 .pcRange = true := by decide

/-- VC2: the frame's bytes stay. -/
theorem test_ret :
    run ((State.reset.setHalf 0 0x0202).setSp 2) 0x00EE
      (fun t => t.sp == 0 && t.pc == 0x202 && t.byte 0 == 0x02 && t.byte 1 == 0x02) = true := by decide

/-- VC3. -/
theorem test_ret_underflow : faults State.reset 0x00EE .stackUnderflow = true := by decide

/-- VC8, VC10: PC and TDIV. -/
theorem test_jp :
    run State.reset 0x1234 (fun t => t.pc == 0x234) = true ∧
    run State.reset 0x1200 (fun t => t.pc == 0x200 && t.tdiv == 1) = true := by decide

/-- VC9, VC12. -/
theorem test_jump_targets :
    faults State.reset 0x11FF .reservedTarget = true ∧ faults State.reset 0xB1FF .reservedTarget = true := by decide

/-- VC11. -/
theorem test_jpb_ignores_v0 : run (State.reset.setReg 0 0x10) 0xB300 (fun t => t.pc == 0x300) = true := by decide

/-! ### Skips -/

/-- VS1, VS2. -/
theorem test_se_imm :
    run (State.reset.setReg 3 0x42) 0x3342 (fun t => t.pc == 0x204) = true ∧
    run (State.reset.setReg 3 0x42) 0x3341 (fun t => t.pc == 0x202) = true := by decide

/-- VS3, VS4. -/
theorem test_sne_imm :
    run (State.reset.setReg 3 0x42) 0x4342 (fun t => t.pc == 0x202) = true ∧
    run (State.reset.setReg 3 0x42) 0x4300 (fun t => t.pc == 0x204) = true := by decide

/-- VS5, VS6. -/
theorem test_se_reg :
    run ((State.reset.setReg 1 7).setReg 2 7) 0x5120 (fun t => t.pc == 0x204) = true ∧
    run (State.reset.setReg 1 3) 0x5110 (fun t => t.pc == 0x204) = true := by decide

/-- VS7, VS8. -/
theorem test_sne_reg :
    run ((State.reset.setReg 1 7).setReg 2 8) 0x9120 (fun t => t.pc == 0x204) = true ∧
    run State.reset 0x9110 (fun t => t.pc == 0x202) = true := by decide

/-- VS10, VS11, VS14. -/
theorem test_skp :
    runs (State.reset.setReg 5 0xA) 0xE59E 0x0400 0 (fun t => t.pc == 0x204) = true ∧
    run (State.reset.setReg 5 0xA) 0xE59E (fun t => t.pc == 0x202) = true ∧
    faults (State.reset.setReg 5 0x10) 0xE59E .keyRange = true := by decide

/-- VS12, VS13, VS15. -/
theorem test_sknp :
    run (State.reset.setReg 5 0xA) 0xE5A1 (fun t => t.pc == 0x204) = true ∧
    runs (State.reset.setReg 5 0xA) 0xE5A1 0x0400 0 (fun t => t.pc == 0x202) = true ∧
    runs (State.reset.setReg 5 0x10) 0xE5A1 0xFFFF 0
      (faultedWith (State.reset.setReg 5 0x10) .keyRange 0xE5A1) = true := by decide

/-- VS16, VS17, VS18: skips at the top of memory. -/
theorem test_skip_at_the_top :
    faults (State.reset.setPc 0xFFC) 0x3000 .pcRange = true ∧
    run (State.reset.setPc 0xFFC) 0x3001 (fun t => t.pc == 0xFFE) = true ∧
    faults (State.reset.setPc 0xFFE) 0x3001 .pcRange = true := by decide

/-! ### Arithmetic and logic -/

/-- VL1, E1: the writeback of the same step takes DT from 5 to 4. -/
theorem test_ld_imm :
    run { State.reset with dt := 5, tdiv := 7 } 0x6A2F (fun t => t.reg 0xA == 0x2F && t.dt == 4 && t.tdiv == 0) = true := by
  decide

/-- VL2, VL3. -/
theorem test_add_imm :
    run ((State.reset.setReg 2 0xFE).setReg 0xF 0x55) 0x7203 (fun t => t.reg 2 == 0x01 && t.reg 0xF == 0x55) = true ∧
    run (State.reset.setReg 0xF 0xFF) 0x7F01 (fun t => t.reg 0xF == 0x00) = true := by decide

/-- VL4. -/
theorem test_ld_reg : run (State.reset.setReg 1 0x33) 0x8010 (fun t => t.reg 0 == 0x33 && t.reg 1 == 0x33) = true := by
  decide

/-- The start of VL5 to VL7. -/
def bits (b : Byte) : State := ((State.reset.setReg 0 0xF0).setReg 1 b).setReg 0xF 0x55

/-- VL5, VL6, VL7. -/
theorem test_logic :
    run (bits 0x0F) 0x8011 (fun t => t.reg 0 == 0xFF && t.reg 0xF == 0x55) = true ∧
    run (bits 0x3C) 0x8012 (fun t => t.reg 0 == 0x30 && t.reg 0xF == 0x55) = true ∧
    run (bits 0x3C) 0x8013 (fun t => t.reg 0 == 0xCC && t.reg 0xF == 0x55) = true := by decide

/-- VL8: a source that is the destination. -/
theorem test_xor_self : run (State.reset.setReg 0 0xAB) 0x8003 (fun t => t.reg 0 == 0) = true := by decide

/-- V0 and V1 at the start of an arithmetic vector. -/
def pair (a b : Byte) : State := (State.reset.setReg 0 a).setReg 1 b

/-- V0 and VF at the end of one. -/
def ends (r f : Byte) (t : State) : Bool := t.reg 0 == r && t.reg 0xF == f && t.pc == 0x202

/-- E2, VL9, VL10, VL11. -/
theorem test_add_reg :
    run (pair 0xFF 0x01) 0x8014 (ends 0x00 1) = true ∧ run (pair 0x7F 0x01) 0x8014 (ends 0x80 0) = true ∧
    run (pair 0xFF 0xFF) 0x8014 (ends 0xFE 1) = true ∧ run (pair 0x80 0) 0x8004 (ends 0x00 1) = true := by decide

/-- VL12, VL13: VF as the destination and as an operand. -/
theorem test_add_reg_vf :
    run ((State.reset.setReg 0xF 0xF0).setReg 1 0x20) 0x8F14 (fun t => t.reg 0xF == 1) = true ∧
    run ((State.reset.setReg 0xF 0x01).setReg 0 0x01) 0x80F4 (fun t => t.reg 0 == 2 && t.reg 0xF == 0) = true := by decide

/-- E3, VL14 to VL17. -/
theorem test_sub_reg :
    run (pair 0x01 0x02) 0x8015 (ends 0xFF 0) = true ∧ run (pair 0x05 0x05) 0x8015 (ends 0x00 1) = true ∧
    run (pair 0x05 0x03) 0x8015 (ends 0x02 1) = true ∧ run (pair 0x00 0xFF) 0x8015 (ends 0x01 0) = true ∧
    run (pair 0x42 0) 0x8005 (ends 0x00 1) = true := by decide

/-- VL22, VL23, VL24. -/
theorem test_subn_reg :
    run (pair 0x01 0x02) 0x8017 (ends 0x01 1) = true ∧ run (pair 0x02 0x01) 0x8017 (ends 0xFF 0) = true ∧
    run (pair 0x07 0x07) 0x8017 (ends 0x00 1) = true := by decide

/-- VL18, VL19, VL20, VL21: both values of `SHIFT_SOURCE`. -/
theorem test_shr_reg :
    run (State.reset.setReg 4 0x05) 0x8406 (fun t => t.reg 4 == 2 && t.reg 0xF == 1) = true ∧
    run (State.reset.setReg 4 0x04) 0x8406 (fun t => t.reg 4 == 2 && t.reg 0xF == 0) = true ∧
    run ((State.reset.setReg 4 0xF0).setReg 1 7) 0x8416 (fun t => t.reg 4 == 0x78 && t.reg 0xF == 0) = true ∧
    run ((resetY.setReg 4 0xF0).setReg 1 7) 0x8416
      (fun t => t.reg 4 == 0x03 && t.reg 0xF == 1 && t.reg 1 == 7) = true := by decide

/-- VL25, VL26, VL27. -/
theorem test_shl_reg :
    run (State.reset.setReg 4 0x81) 0x840E (fun t => t.reg 4 == 2 && t.reg 0xF == 1) = true ∧
    run (State.reset.setReg 4 0x40) 0x840E (fun t => t.reg 4 == 0x80 && t.reg 0xF == 0) = true ∧
    run ((resetY.setReg 4 0x01).setReg 1 0x80) 0x841E (fun t => t.reg 4 == 0 && t.reg 0xF == 1) = true := by decide

/-- VL28, VL29: the flag overwrites a result in VF. -/
theorem test_shift_vf :
    run (State.reset.setReg 0xF 0x03) 0x8F06 (fun t => t.reg 0xF == 1) = true ∧
    run (State.reset.setReg 0xF 0x80) 0x8F0E (fun t => t.reg 0xF == 1) = true := by decide

/-- VL30, VL31, VL32. -/
theorem test_rnd :
    runs State.reset 0xC30F 0 0xB7 (fun t => t.reg 3 == 0x07) = true ∧
    runs State.reset 0xC300 0 0xB7 (fun t => t.reg 3 == 0x00) = true ∧
    runs State.reset 0xC3FF 0 0x5A (fun t => t.reg 3 == 0x5A) = true := by decide

/-! ### The index register and memory -/

/-- VM1. -/
theorem test_ld_i : run State.reset 0xA2F0 (fun t => t.i == 0x02F0) = true := by decide

/-- VM2, VM3, VM4. -/
theorem test_add_i :
    run (((State.reset.setI 0x0FFF).setReg 0 2).setReg 0xF 0x55) 0xF01E
      (fun t => t.i == 0x1001 && t.reg 0xF == 0x55) = true ∧
    run ((State.reset.setI 0xFF00).setReg 0 0xFF) 0xF01E (fun t => t.i == 0xFFFF) = true ∧
    faults ((State.reset.setI 0xFFFF).setReg 0 1) 0xF01E .indexOverflow = true := by decide

/-- VM5 to VM9. -/
theorem test_ld_font :
    run (State.reset.setReg 0 0x0A) 0xF029 (fun t => t.i == 0x052) = true ∧
    run (State.reset.setReg 0 0x00) 0xF029 (fun t => t.i == 0x020) = true ∧
    run (State.reset.setReg 0 0x0F) 0xF029 (fun t => t.i == 0x06B) = true ∧
    run (State.reset.setReg 0 0x10) 0xF029 (fun t => t.i == 0x070) = true ∧
    run (State.reset.setReg 0 0xFF) 0xF029 (fun t => t.i == 0x51B) = true := by decide

/-- E8: glyph A in memory. -/
theorem test_glyph_a :
    [State.reset.byte 0x52, State.reset.byte 0x53, State.reset.byte 0x54, State.reset.byte 0x55, State.reset.byte 0x56] =
      [0xF0, 0x90, 0xF0, 0x90, 0x90] := by decide

/-- The three bytes at `a`. -/
def three (a : Nat) (t : State) : List Byte := [t.byte a, t.byte (a + 1), t.byte (a + 2)]

/-- E6, VM10, VM11, VM14. -/
theorem test_bcd :
    run ((State.reset.setI 0x300).setReg 0 156) 0xF033 (fun t => three 0x300 t == [1, 5, 6] && t.i == 0x300) = true ∧
    run (State.reset.setI 0x300) 0xF033 (fun t => three 0x300 t == [0, 0, 0]) = true ∧
    run ((State.reset.setI 0x300).setReg 0 0xFF) 0xF033 (fun t => three 0x300 t == [2, 5, 5]) = true ∧
    run ((State.reset.setI 0xFFD).setReg 0 9) 0xF033 (fun t => three 0xFFD t == [0, 0, 9]) = true := by decide

/-- VM12, VM13, VM15. -/
theorem test_bcd_faults :
    faults ((State.reset.setI 0x1FF).setReg 0 9) 0xF033 .reservedWrite = true ∧
    faults ((State.reset.setI 0xFFE).setReg 0 9) 0xF033 .memRange = true ∧
    faults ((State.reset.setI 0x1000).setReg 0 9) 0xF033 .memRange = true := by decide

/-- VM16, VM17. -/
theorem test_store_regs :
    run (((State.reset.setI 0x300).setReg 0 0x11).setReg 1 0x22) 0xF155
      (fun t => three 0x300 t == [0x11, 0x22, 0] && t.i == 0x302) = true ∧
    run ((State.reset.setI 0x300).setReg 0 0x77) 0xF055 (fun t => t.byte 0x300 == 0x77 && t.i == 0x301) = true := by
  decide

/-- VM18, VM19, VM20. -/
theorem test_store_regs_edges :
    faults (State.reset.setI 0x1FF) 0xF055 .reservedWrite = true ∧
    run ((State.reset.setI 0xFF0).setReg 0xF 0xEE) 0xFF55 (fun t => t.byte 0xFFF == 0xEE && t.i == 0x1000) = true ∧
    faults (State.reset.setI 0xFF1) 0xFF55 .memRange = true := by decide

/-- VM21, VM22: the font and the stack can be read. -/
theorem test_load_regs :
    run (State.reset.setI 0x020) 0xF465
      (fun t => [t.reg 0, t.reg 1, t.reg 2, t.reg 3, t.reg 4] == [0xF0, 0x90, 0x90, 0x90, 0xF0] && t.i == 0x025) = true ∧
    run (State.reset.setHalf 0 0x0206) 0xF165 (fun t => t.reg 0 == 2 && t.reg 1 == 6 && t.i == 2) = true := by decide

/-- VM23, VM24. -/
theorem test_load_regs_edges :
    run ((State.reset.setI 0xFF0).setByte 0xFFF 0xAB) 0xFF65 (fun t => t.reg 0xF == 0xAB && t.i == 0x1000) = true ∧
    faults (State.reset.setI 0xFF1) 0xFF65 .memRange = true := by decide

/-! ### Timers and keys -/

/-- VK1, VK2. -/
theorem test_ld_from_dt :
    run (State.reset.setDt 0x3C) 0xF307 (fun t => t.reg 3 == 0x3C) = true ∧
    run { State.reset with dt := 0x3C, tdiv := 7 } 0xF307
      (fun t => t.reg 3 == 0x3C && t.dt == 0x3B && t.tdiv == 0) = true := by decide

/-- VK3, VK6, VK7. -/
theorem test_ld_key_edges :
    run (State.reset.setReg 5 0x33) 0xF50A (fun t => t.pc == 0x200 && t.reg 5 == 0x33 && t.tdiv == 1) = true ∧
    run (State.reset.setPc 0xFFE) 0xF50A (fun t => t.pc == 0xFFE && t.result == some .ok) = true ∧
    runs (State.reset.setPc 0xFFE) 0xF50A 0x0081 0 (faultedWith (State.reset.setPc 0xFFE) .pcRange 0xF50A) = true := by
  decide

/-- VK4, VK5: both key orders. -/
theorem test_ld_key :
    runs State.reset 0xF50A 0x0081 0 (fun t => t.reg 5 == 0 && t.pc == 0x202) = true ∧
    runs resetDown 0xF50A 0x0081 0 (fun t => t.reg 5 == 7 && t.pc == 0x202) = true := by decide

/-- VK8, VK9, VK12. -/
theorem test_ld_to_dt :
    run (State.reset.setReg 2 0x3C) 0xF215 (fun t => t.dt == 0x3C) = true ∧
    run { State.reset.setReg 2 0x3C with tdiv := 7 } 0xF215 (fun t => t.dt == 0x3B && t.tdiv == 0) = true ∧
    run (State.reset.setDt 5) 0xF015 (fun t => t.dt == 0) = true := by decide

/-- VK10, VK11. -/
theorem test_ld_to_st :
    run (State.reset.setReg 2 5) 0xF218 (fun t => t.st == 5) = true ∧
    run { State.reset.setReg 2 5 with tdiv := 7 } 0xF218 (fun t => t.st == 4 && t.soundPort == 4) = true := by decide

/-! ### The display -/

/-- VD1. -/
theorem test_cls :
    run (State.reset.setRow 3 5) 0x00E0 (fun t => t.row 3 == 0 && t.drawPort == some t.disp && t.reg 0xF == 0) = true := by
  decide

/-- The rows from `r` on. -/
def rows (r k : Nat) (t : State) : List Row := (List.range k).map (fun j => t.row (r + j))

/-- VD2, VD7. -/
theorem test_drw :
    run (State.reset.setI 0x052) 0xD015
      (fun t => rows 0 6 t == [0xF, 0x9, 0xF, 0x9, 0x9, 0] && t.reg 0xF == 0 && t.drawOut) = true ∧
    run ((State.reset.setI 0x052).setReg 1 27) 0xD015
      (fun t => rows 26 6 t == [0, 0xF, 0x9, 0xF, 0x9, 0x9]) = true := by decide

/-- VD4 and the start of VD11, VD12: one byte at 0x300 drawn at column `c` over a first row `w`. -/
def sprite (b c : Byte) (w : Row) : State := (((State.reset.setI 0x300).setByte 0x300 b).setReg 0 c).setRow 0 w

/-- VD4, VD5, VD11, VD12, VD14. -/
theorem test_drw_pixels :
    run (sprite 0xFF 60 0) 0xD011 (fun t => t.row 0 == 0xF000000000000000 && t.reg 0xF == 0) = true ∧
    run (sprite 0xFF 64 0xFFFFFFFFFFFFFFFF) 0xD011
      (fun t => t.row 0 == 0xFFFFFFFFFFFFFFFF && t.reg 0xF == 0 && t.drawOut) = true ∧
    run (sprite 0x80 0 1) 0xD011 (fun t => t.row 0 == 0 && t.reg 0xF == 1) = true ∧
    run (sprite 0x40 0 1) 0xD011 (fun t => t.row 0 == 3 && t.reg 0xF == 0) = true ∧
    run (sprite 0xC0 1 1) 0xD011 (fun t => t.row 0 == 7 && t.reg 0xF == 0) = true := by decide

/-- VD6, VD8, VD9, VD10. -/
theorem test_drw_edges :
    faults ((State.reset.setI 0x052).setReg 1 28) 0xD015 .displayRange = true ∧
    run ((State.reset.setI 0xFFF).setReg 0xF 1) 0xD010 (fun t => t.reg 0xF == 0 && t.drawOut) = true ∧
    faults (State.reset.setI 0xFFE) 0xD013 .memRange = true ∧
    run (State.reset.setI 0xFFE) 0xD012 (fun t => t.result == some .ok) = true := by decide

/-- VD13: the collision of row 0 stays. VD15: the coordinate is read before VF is written. -/
theorem test_drw_flag :
    run ((sprite 0x80 0 1).setByte 0x301 0x80) 0xD012
      (fun t => t.row 0 == 0 && t.row 1 == 1 && t.reg 0xF == 1) = true ∧
    run ((sprite 0x80 0 0).setReg 0xF 4) 0xDF01 (fun t => t.row 0 == 0x10 && t.reg 0xF == 0) = true := by decide

/-! ### Reset and load -/

/-- VR1 and VR4, the fields a fault or a run could leave behind. -/
theorem test_reset_clears_fault :
    nextIs (serve .reset (ofNext (step State.reset)))
      (fun t => !t.halted && t.faultCode == .none && t.pc == 0x200 && t.drawOut && t.loadOpen && t.mem == []) = true := by
  decide

/-- VR2, VR3 and the closed window (`70_reset_and_hazards.md` R263), on images of few bytes and one too long. -/
theorem test_load :
    nextIs (serve (.load [0x12, 0x34]) State.reset)
      (fun t => t.byte 0x200 == 0x12 && t.byte 0x201 == 0x34 && t.byte 0x202 == 0 && t.pc == 0x200) = true ∧
    (∀ image, image.length = 3585 → serve (.load image) State.reset = .refused .imageTooLong) ∧
    (match serve (.load []) (ofNext (step State.reset)) with | .refused .loadClosed => true | _ => false) = true := by
  refine ⟨by decide, fun image h => ?_, by decide⟩
  simp [serve, State.hostLoad, h, maxImage, State.reset, State.resetWith]

/-- The numbers of the fault codes (`60_exceptions.md` R221). -/
theorem test_fault_numbers :
    FaultCode.number .none = 0 ∧ FaultCode.number .unknownOpcode = 1 ∧ FaultCode.number .stackUnderflow = 3 ∧
    FaultCode.number .reservedWrite = 5 ∧ FaultCode.number .indexOverflow = 8 ∧
    FaultCode.number .displayRange = 10 := by decide

/-- State readout covers all of memory (`60_exceptions.md` R250). -/
theorem test_dump_length : State.reset.memoryDump.length = 4096 := by
  rw [State.memoryDump, List.length_map, List.length_range]

/-! ### Witnesses: for each statement with hypotheses, states and operands that meet them, clause by clause -/

/-- Reset with PC at `a`. -/
def atPc (a : Addr) : State := State.reset.setPc a

/-- Reset with a fault recorded. -/
def stopped : State := State.reset.raise .unknownOpcode 0x0000

/-- Reset with a word at PC. -/
def holding (op : Opcode) : State := State.reset.placeWord op

/-- The start of a call and return: 2204 at 0x200, 6A2F at 0x204, 00EE at 0x206. -/
def caller : State :=
  { State.reset with
    mem := [(0x200, 0x22), (0x201, 0x04), (0x204, 0x6A), (0x205, 0x2F), (0x207, 0xEE)] }

/-- Its state inside the callee. -/
def callee : State := ofNext (step caller)

/-- Its state before the return. -/
def returning : State := ofNext (step callee)

/-- What the spec says of the parameters holds of both kinds of machine the tests use. -/
theorem witness_reset_meets_invariant : resetY.params.wf = true ∧ resetDown.params.wf = true := by decide

/-- The invariant of a state with the default parameters and nothing on the stack, whose cells lie at 0x200 and above. -/
theorem inv_of_cells {s : State} (hp : s.params = defaultParams) (hm : Memory.wf (resetByte defaultParams) s.mem)
    (hl : ∀ c ∈ s.mem, 0x200 ≤ c.1) (hs : s.sp = 0) (hpc : 0x200 ≤ s.pc.toNat) (hd : s.tdiv < 8)
    (hh : s.halted = false) (hc : s.faultCode = .none) : Inv s := by
  have low : ∀ a, a < 0x200 → s.byte a = resetByte s.params a := fun a ha => by
    unfold State.byte
    have : ∀ m : Memory, (∀ c ∈ m, 0x200 ≤ c.1) → Memory.read (resetByte s.params) m a = resetByte s.params a := by
      intro m
      induction m with
      | nil => exact fun _ => rfl
      | cons c m ih =>
        intro h
        have h1 := h c (by simp)
        rw [Memory.read, if_neg (by omega), ih (fun e he => h e (by simp [he]))]
    exact this s.mem hl
  refine ⟨by rw [hp]; decide, by rw [hp]; exact hm, by rw [hs]; rfl, by rw [hs]; decide, fun k hk => ?_, hpc,
    by rw [hp]; exact hd, fun a _ h2 => low a h2, by simp [hh, hc], by simp [hh]⟩
  rw [hs] at hk
  simp at hk

theorem inv_reset : Inv State.reset := inv_of_cells rfl (by decide) (by decide) rfl (by decide) (by decide) rfl rfl

theorem inv_caller : Inv caller := inv_of_cells rfl (by decide) (by decide) rfl (by decide) (by decide) rfl rfl

/-- The invariant also holds with a frame on the stack. -/
theorem inv_callee : Inv callee where
  params := by decide
  mem := by decide
  spEven := by decide
  spMax := by decide
  frames k hk := by
    have h : callee.sp = 2 := by decide
    rw [h] at hk
    have : k = 0 := by simp at hk; omega
    subst this
    decide
  pcLow := by decide
  divider := by decide
  lowBytes a h1 h2 := by
    have h : callee.mem = [(0x000, 0x02), (0x001, 0x02), (0x200, 0x22), (0x201, 0x04), (0x204, 0x6A), (0x205, 0x2F),
      (0x207, 0xEE)] := by decide
    simp only [State.byte, h, Memory.read]
    repeat rw [if_neg (by omega)]
  record := by decide
  faultPc := by decide

/-! #### The step -/

theorem witness_step_runs : (holding 0x00E0).halted = false ∧ AtPc (holding 0x00E0) .cls :=
  ⟨by decide, by decide, rfl⟩

theorem witness_fetch_and_decode :
    State.reset.halted = false ∧ 0xFFE < (atPc 0xFFF).pc.toNat ∧ (atPc 0xFFE).pc.toNat ≤ 0xFFE ∧
    decodeWord ((atPc 0xFFE).byte 0xFFE ++ (atPc 0xFFE).byte 0xFFF) = none ∧
    decodeWord (((atPc 0xFFE).placeWord 0x1234).byte 0xFFE ++ ((atPc 0xFFE).placeWord 0x1234).byte 0xFFF) =
      some (.jp 0x234) := by decide

theorem witness_halted : stopped.halted = true := by decide

/-- A request that is no reset, to a halted machine. -/
theorem witness_halted_until_reset :
    stopped.halted = true ∧ HostRequest.step 0 0 ≠ .reset ∧ ∃ t, serve (.step 0 0) stopped = .next t :=
  ⟨by decide, by decide, ofNext (serve (.step 0 0) stopped), rfl⟩

theorem witness_bookkeeping :
    (∃ t, serve (.step 0xFFFF 0x5A) State.reset = .next t) ∧ ∃ t, step State.reset = .next t :=
  ⟨⟨ofNext (serve (.step 0xFFFF 0x5A) State.reset), rfl⟩, ofNext (step State.reset), rfl⟩

theorem witness_fault_is_precise :
    ∃ s t, s.halted = false ∧ step s = .next t ∧ t.result = some (.fault .unknownOpcode) ∧ s.pc.toNat ≤ 0xFFE :=
  ⟨atPc 0xFFE, ofNext (step (atPc 0xFFE)), by decide, rfl, by decide, by decide⟩

theorem witness_fault_at_fetch :
    ∃ s t, s.halted = false ∧ step s = .next t ∧ t.result = some (.fault .memRange) ∧ 0xFFE < s.pc.toNat :=
  ⟨atPc 0xFFF, ofNext (step (atPc 0xFFF)), by decide, rfl, by decide, by decide⟩

/-- A fault of its own, a fault of its next PC, and none, at the edge between them. -/
theorem witness_exec_completes :
    faultOf (State.reset.setI 0x1FF) (.bcd 0) = some .reservedWrite ∧ faultOf (atPc 0xFFE) .cls = some .pcRange ∧
    faultOf (atPc 0xFFD) .cls = none ∧ State.reset.sp.toNat ≠ 1 ∧ faultOf State.reset .ret = some .stackUnderflow := by
  decide

theorem witness_encoding :
    Instr.wellFormed (.drw 0xF 0x0 0xF) = true ∧ decodeWord 0xDF0F = some (.drw 0xF 0x0 0xF) := by decide

theorem witness_opcode_map :
    (∃ r ∈ opcodeMap, ∃ q ∈ opcodeMap, r.covers 0x8AB5 = true ∧ q.covers 0x8AB5 = true) ∧
    decodeWord 0x8AB5 = some (.subReg 0xA 0xB) :=
  ⟨⟨⟨"8xy5", 0x8005, 0xF00F⟩, by decide, ⟨"8xy5", 0x8005, 0xF00F⟩, by decide, by decide, by decide⟩, by decide⟩

/-! #### Control transfer -/

/-- An empty stack; frames that return to 0xFFF and to 0x1000, the lowest and the highest frame. -/
theorem witness_return :
    State.reset.sp.toNat = 0 ∧
    (2 ≤ ((State.reset.setHalf 0 0x0FFF).setSp 2).sp.toNat ∧
      nextPc ((State.reset.setHalf 0 0x0FFF).setSp 2) .ret ≤ 0xFFF) ∧
    (2 ≤ ((State.reset.setHalf 0 0x1000).setSp 2).sp.toNat ∧
      0xFFF < nextPc ((State.reset.setHalf 0 0x1000).setSp 2) .ret) ∧
    (2 ≤ ((State.reset.setHalf 30 0x0202).setSp 32).sp.toNat ∧
      nextPc ((State.reset.setHalf 30 0x0202).setSp 32) .ret = 0x202) := by decide

theorem witness_return_inv : Inv callee ∧ 2 ≤ callee.sp.toNat := ⟨inv_callee, by decide⟩

theorem witness_return_stops : (State.reset.setSp 1).sp.toNat = 1 ∧ Inv State.reset := ⟨by decide, inv_reset⟩

/-- The two sides of the lowest target, for 1nnn and Bnnn alike. -/
theorem witness_jump : (0x1FF#12).toNat < 0x200 ∧ 0x200 ≤ (0x200#12).toNat := by decide

theorem witness_call :
    32 ≤ (State.reset.setSp 32).sp.toNat ∧ (State.reset.setSp 30).sp.toNat < 32 ∧ (0x1FF#12).toNat < 0x200 ∧
    0x200 ≤ (0x200#12).toNat ∧ 0xFFF < (atPc 0xFFE).pc.toNat + 2 ∧ (atPc 0xFFD).pc.toNat + 2 ≤ 0xFFF := by decide

/-- A call, one instruction inside the callee, and the return. -/
theorem witness_call_then_return :
    Inv caller ∧ caller.halted = false ∧ AtPc caller (.call 0x204) ∧ step caller = .next callee ∧
    callee.result = some .ok ∧ RunsAbove callee.sp.toNat callee returning ∧ returning.sp = callee.sp ∧
    returning.halted = false ∧ AtPc returning .ret ∧ ∃ v, step returning = .next v :=
  ⟨inv_caller, by decide, ⟨by decide, rfl⟩, rfl, by decide, .one (.none _) rfl (by decide), by decide, by decide,
    ⟨by decide, rfl⟩, ofNext (step returning), rfl⟩

/-- Skips taken and not taken, each on both sides of the top of memory. -/
theorem witness_skip :
    (atPc 0xFFB).pc.toNat + (if (true : Bool) then 4 else 2) ≤ 0xFFF ∧
    0xFFF < (atPc 0xFFC).pc.toNat + (if (true : Bool) then 4 else 2) ∧
    (atPc 0xFFD).pc.toNat + (if (false : Bool) then 4 else 2) ≤ 0xFFF ∧
    0xFFF < (atPc 0xFFE).pc.toNat + (if (false : Bool) then 4 else 2) := by decide

theorem witness_skip_conditions :
    decide ((State.reset.setReg 3 0x42).reg 3 = 0x42) = true ∧ decide ((State.reset.setReg 3 0x42).reg 3 = 0x41) = false ∧
    decide ((pair 7 8).reg 0 = (pair 7 8).reg 1) = false ∧ decide ((pair 7 7).reg 0 = (pair 7 7).reg 1) = true := by
  decide

/-- Key codes on both sides of 0xF, and key F held and not held. -/
theorem witness_skip_on_key :
    0xF < ((State.reset.setReg 5 0x10).reg 5).toNat ∧ ((State.reset.setReg 5 0xF).reg 5).toNat ≤ 0xF ∧
    ({ State.reset.setReg 5 0xF with inputs := [⟨0x8000, 0⟩] } : State).keys.getLsbD 0xF = true ∧
    ({ State.reset.setReg 5 0xF with inputs := [⟨0x7FFF, 0⟩] } : State).keys.getLsbD 0xF = false := by decide

/-! #### Register loads and arithmetic -/

/-- The two clauses of every instruction that goes on in sequence: PC at 0xFFD and at 0xFFE. -/
theorem witness_sequence : (atPc 0xFFD).pc.toNat + 2 ≤ 0xFFF ∧ 0xFFF < (atPc 0xFFE).pc.toNat + 2 := by decide

/-- Flags on both sides: a sum of 0xFF and of 0x100, equal operands and a borrow. -/
theorem witness_flags :
    ¬ 0xFF < ((pair 0xFE 1).reg 0).toNat + ((pair 0xFE 1).reg 1).toNat ∧
    0xFF < ((pair 0xFF 1).reg 0).toNat + ((pair 0xFF 1).reg 1).toNat ∧
    ((pair 5 5).reg 1).toNat ≤ ((pair 5 5).reg 0).toNat ∧ ¬ ((pair 5 6).reg 1).toNat ≤ ((pair 5 6).reg 0).toNat := by
  decide

theorem witness_flag_wordings :
    (0x0#4) ≠ flagReg ∧ ∃ t u w, exec (.addReg 0 1) (pair 0xFF 1) = .next t ∧ t.result = some .ok ∧
      exec (.subReg 0 1) (pair 5 5) = .next u ∧ u.result = some .ok ∧
      exec (.subnReg 0 1) (pair 6 5) = .next w ∧ w.result = some .ok :=
  ⟨by decide, ofNext (exec (.addReg 0 1) (pair 0xFF 1)), ofNext (exec (.subReg 0 1) (pair 5 5)),
    ofNext (exec (.subnReg 0 1) (pair 6 5)), rfl, by decide, rfl, by decide, rfl, by decide⟩

/-- A shifted register for each value of `SHIFT_SOURCE`, with the bit that is shifted out 0 and 1. -/
theorem witness_shift :
    (State.reset.params.shiftSource = .x → (0x05 : Byte) = (State.reset.setReg 4 0x05).reg 4) ∧
    (State.reset.params.shiftSource = .y → (0x05 : Byte) = (State.reset.setReg 4 0x05).reg 1) ∧
    (resetY.params.shiftSource = .x → (0x80 : Byte) = (resetY.setReg 1 0x80).reg 4) ∧
    (resetY.params.shiftSource = .y → (0x80 : Byte) = (resetY.setReg 1 0x80).reg 1) ∧
    (0x05 : Byte).toNat % 2 = 1 ∧ ¬ (0x80 : Byte).toNat % 2 = 1 ∧ 128 ≤ (0x80 : Byte).toNat := by decide

/-! #### Index and memory -/

theorem witness_add_index :
    0xFFFF < ((State.reset.setI 0xFFFF).setReg 0 1).i.toNat + (((State.reset.setI 0xFFFF).setReg 0 1).reg 0).toNat ∧
    ((State.reset.setI 0xFF00).setReg 0 0xFF).i.toNat + (((State.reset.setI 0xFF00).setReg 0 0xFF).reg 0).toNat
      ≤ 0xFFFF := by decide

theorem witness_glyph :
    Inv State.reset ∧ (State.reset.reg 0).toNat < 16 ∧ (0xF#8).toNat < 16 ∧ ¬ (0x10#8).toNat < 16 :=
  ⟨inv_reset, by decide, by decide, by decide⟩

/-- I on both sides of 0x200, and the last byte on both sides of 0xFFF, for Fx33 (three bytes). -/
theorem witness_digits :
    (State.reset.setI 0x1FF).i.toNat < 0x200 ∧ 0x200 ≤ (State.reset.setI 0x200).i.toNat ∧
    0xFFF < (State.reset.setI 0xFFE).i.toNat + 2 ∧ (State.reset.setI 0xFFD).i.toNat + 2 ≤ 0xFFF := by decide

/-- The same for Fx55 and Fx65, with one register and with all sixteen. -/
theorem witness_block :
    0xFFF < (State.reset.setI 0x1000).i.toNat + (0x0#4).toNat ∧ (State.reset.setI 0xFFF).i.toNat + (0x0#4).toNat ≤ 0xFFF ∧
    0xFFF < (State.reset.setI 0xFF1).i.toNat + (0xF#4).toNat ∧ (State.reset.setI 0xFF0).i.toNat + (0xF#4).toNat ≤ 0xFFF := by
  decide

/-! #### Timers and keys -/

/-- No key held; keys 2 and 7 held, so that 0x2 comes after two free keys of the order; the first key of the order held. -/
theorem witness_key_wait :
    (∀ k ∈ ({ State.reset with inputs := [⟨0, 0⟩] } : State).params.keyOrder,
      ({ State.reset with inputs := [⟨0, 0⟩] } : State).keys.getLsbD k.toNat = false) ∧
    State.reset.params.keyOrder = [0x0, 0x1] ++ 0x2 :: [0x3, 0x4, 0x5, 0x6, 0x7, 0x8, 0x9, 0xA, 0xB, 0xC, 0xD, 0xE, 0xF] ∧
    (∀ j ∈ ([0x0, 0x1] : List Key),
      ({ State.reset with inputs := [⟨0x0084, 0⟩] } : State).keys.getLsbD j.toNat = false) ∧
    ({ State.reset with inputs := [⟨0x0084, 0⟩] } : State).keys.getLsbD (0x2#4).toNat = true ∧
    State.reset.params.keyOrder = [] ++ 0x0 :: allKeys.tail ∧
    ({ State.reset with inputs := [⟨0x0001, 0⟩] } : State).keys.getLsbD (0x0#4).toNat = true := by decide

theorem witness_pressed_key :
    State.reset.params.wf = true ∧ resetDown.params.wf = true ∧ ∃ t, step resetDown = .next t :=
  ⟨by decide, by decide, ofNext (step resetDown), rfl⟩

/-- A step that commits and one that faults. -/
theorem witness_timer_writeback :
    ∃ t u, step (holding 0x1200) = .next t ∧ t.result = some .ok ∧ step State.reset = .next u ∧ u.result ≠ some .ok :=
  ⟨ofNext (step (holding 0x1200)), ofNext (step State.reset), rfl, by decide, rfl, by decide⟩

/-- Looping at 0x200 with DT = 1 and a period of 1: one committed step, and DT has run down. -/
def ticking : State :=
  { (State.resetWith { defaultParams with timerPeriod := 1 }).placeWord 0x1200 with dt := 1 }

theorem witness_timers :
    ticking.tdiv < ticking.params.timerPeriod ∧ QuietRun 1 ticking (ofNext (step ticking)) ∧
    ticking.params.timerPeriod * ticking.dt.toNat ≤ 1 :=
  ⟨by decide, .one (.jp 0x200) (.none _) ⟨by decide, rfl⟩ (by simp) (by simp) rfl (by decide), by decide⟩

/-- With the default period, from the last phase of TDIV. -/
theorem witness_timers_default :
    let s : State := { holding 0x1200 with dt := 1, tdiv := 7 }
    s.tdiv < s.params.timerPeriod ∧ QuietRun 1 s (ofNext (step s)) :=
  ⟨by decide, .one (.jp 0x200) (.none _) ⟨by decide, rfl⟩ (by simp) (by simp) rfl (by decide)⟩

/-! #### The display -/

/-- Sprites whose last byte is 0x1000 and 0xFFF, and whose last row is 32 and 31; zero rows with I past memory. -/
theorem witness_draw :
    (0 < (2#4).toNat ∧ 0xFFF < (State.reset.setI 0xFFF).i.toNat + (2#4).toNat - 1) ∧
    (State.reset.setI 0xFFE).i.toNat + (2#4).toNat - 1 ≤ 0xFFF ∧
    (0 < (5#4).toNat ∧ 31 < ((State.reset.setReg 1 28).reg 1).toNat + (5#4).toNat - 1) ∧
    ((State.reset.setReg 1 27).reg 1).toNat + (5#4).toNat - 1 ≤ 31 ∧
    (0 < (0#4).toNat → (State.reset.setI 0xFFFF).i.toNat + (0#4).toNat - 1 ≤ 0xFFF ∧
      ((State.reset.setReg 1 0xFF).reg 1).toNat + (0#4).toNat - 1 ≤ 31) := by decide

/-- A collision and none. -/
theorem witness_draw_collision :
    (∃ r c, r < (1#4).toNat ∧ c < 64 ∧ (sprite 0x80 0 1).pixel c (((sprite 0x80 0 1).reg 1).toNat + r) = true ∧
      spritePixel ((sprite 0x80 0 1).byte ((sprite 0x80 0 1).i.toNat + r)) ((sprite 0x80 0 1).reg 0).toNat c = true) ∧
    (¬ ∃ r c, r < (0#4).toNat ∧ c < 64 ∧ (sprite 0x80 0 1).pixel c (((sprite 0x80 0 1).reg 1).toNat + r) = true ∧
      spritePixel ((sprite 0x80 0 1).byte ((sprite 0x80 0 1).i.toNat + r)) ((sprite 0x80 0 1).reg 0).toNat c = true) :=
  ⟨⟨0, 0, by decide, by decide, by decide, by decide⟩, fun ⟨_, _, h, _⟩ => absurd h (Nat.not_lt_zero _)⟩

/-- A draw at column 63 and one at column 64. -/
theorem witness_clipping :
    ∃ s t, exec (.drw 0 1 1) s = .next t ∧ t.result = some .ok ∧ 64 ≤ (s.reg 0).toNat :=
  ⟨sprite 0xFF 64 0, ofNext (exec (.drw 0 1 1) (sprite 0xFF 64 0)), rfl, by decide, by decide⟩

theorem witness_clipping_left :
    ∃ s t, exec (.drw 0 1 1) s = .next t ∧ t.result = some .ok ∧ (62 : Nat) < (s.reg 0).toNat :=
  ⟨sprite 0xFF 63 0, ofNext (exec (.drw 0 1 1) (sprite 0xFF 63 0)), rfl, by decide, by decide⟩

/-- E5: glyph A drawn on a blank display, then again. -/
def drawnOnce : State := ofNext (exec (.drw 0 1 5) (State.reset.setI 0x052))

theorem witness_draw_twice :
    exec (.drw 0 1 5) (State.reset.setI 0x052) = .next drawnOnce ∧ drawnOnce.result = some .ok ∧
    drawnOnce.i = (State.reset.setI 0x052).i ∧ drawnOnce.reg 0 = (State.reset.setI 0x052).reg 0 ∧
    drawnOnce.reg 1 = (State.reset.setI 0x052).reg 1 ∧
    (∀ r, r < (5#4).toNat → drawnOnce.byte (0x052 + r) = (State.reset.setI 0x052).byte (0x052 + r)) ∧
    (∃ v, exec (.drw 0 1 5) drawnOnce = .next v ∧ v.result = some .ok) ∧ ∀ r, r < 32 → State.reset.row r = 0 :=
  ⟨rfl, by decide, by decide, by decide, by decide, by decide, ⟨ofNext (exec (.drw 0 1 5) drawnOnce), rfl, by decide⟩,
    by decide⟩

/-- A draw, a step that draws nothing, and a draw that faults. -/
theorem witness_draw_output :
    ∃ t u w, exec .cls State.reset = .next t ∧ t.result = some .ok ∧ drawsDisplay .cls = true ∧
      exec (.ldI 0) State.reset = .next u ∧ drawsDisplay (.ldI 0) = false ∧
      exec .cls (atPc 0xFFE) = .next w ∧ w.result ≠ some .ok :=
  ⟨ofNext (exec .cls State.reset), ofNext (exec (.ldI 0) State.reset), ofNext (exec .cls (atPc 0xFFE)), rfl, by decide,
    rfl, rfl, rfl, rfl, by decide⟩

/-! #### Frames and inputs -/

theorem witness_frames :
    ∃ t, exec (.storeRegs 0) (State.reset.setI 0x300) = .next t ∧ t.result = some .ok ∧
      mayWriteReg (State.reset.setI 0x300) 0x0 (.storeRegs 0) = false ∧
      mayStore (State.reset.setI 0x300) 0x301 (.storeRegs 0) = false ∧
      mayStore (State.reset.setI 0x300) 0x300 (.storeRegs 0) = true ∧
      movesStack (.storeRegs 0) = false ∧ drawsDisplay (.storeRegs 0) = false ∧ writesIndexReg .cls = false :=
  ⟨ofNext (exec (.storeRegs 0) (State.reset.setI 0x300)), rfl, by decide, by decide, by decide, by decide, rfl, rfl, rfl⟩

/-- Samples that differ in the keys alone, for Cxkk, and in the random byte alone, for Fx0A. -/
theorem witness_inputs :
    let s : State := { State.reset with inputs := [⟨0, 5⟩] }
    (({ s with inputs := [⟨0xFFFF, 5⟩], requests := 7 } : State).rand = s.rand) ∧
    (({ s with inputs := [⟨0, 6⟩], requests := 7 } : State).keys = s.keys) ∧
    readsRand (.rnd 0 0) = true ∧ readsKeys (.ldKey 0) = true ∧ (∃ t, exec (.rnd 0 0) s = .next t) ∧
    ∃ t, exec (.ldKey 0) s = .next t :=
  ⟨by decide, by decide, rfl, rfl, ⟨ofNext (exec (.rnd 0 0) { State.reset with inputs := [⟨0, 5⟩] }), rfl⟩,
    ⟨ofNext (exec (.ldKey 0) { State.reset with inputs := [⟨0, 5⟩] }), rfl⟩⟩

/-! #### Invariants, loading and memory -/

/-- A step that commits from a state with the invariant, and one that faults. -/
theorem witness_step_keeps_invariant :
    Inv caller ∧ step caller = .next callee ∧ Inv State.reset ∧ ∃ t, step State.reset = .next t :=
  ⟨inv_caller, rfl, inv_reset, ofNext (step State.reset), rfl⟩

theorem witness_host_requests :
    Inv State.reset ∧ (∃ t, serve .reset State.reset = .next t) ∧ (∃ t, serve (.load [0x12, 0x00]) State.reset = .next t) ∧
    ∃ t, serve (.step 0 0) State.reset = .next t :=
  ⟨inv_reset, ⟨ofNext (serve .reset State.reset), rfl⟩, ⟨ofNext (serve (.load [0x12, 0x00]) State.reset), rfl⟩,
    ⟨ofNext (serve (.step 0 0) State.reset), rfl⟩⟩

/-- A push, at the byte next to the first that never changes. -/
theorem witness_low_memory :
    let s := (holding 0x2300).setSp 30
    s.sp.toNat % 2 = 0 ∧ step s = .next (ofNext (step s)) ∧ (ofNext (step s)).byte 0x1F = 0x02 ∧ 0x20 ≤ 0x20 ∧ 0x20 < 0x200 :=
  ⟨by decide, rfl, by decide, by decide, by decide⟩

theorem witness_load :
    State.reset.loadOpen = true ∧ (List.replicate 3584 (0x12 : Byte)).length ≤ 3584 ∧
    3584 < (List.replicate 3585 (0x12 : Byte)).length ∧ (ofNext (step State.reset)).loadOpen = false ∧
    ∃ t, step State.reset = .next t :=
  ⟨by decide, by rw [List.length_replicate], by rw [List.length_replicate]; omega, by decide, ofNext (step State.reset), rfl⟩

/-- R54's example, with the store at 0x2FE so that the next fetch is from the stored bytes. -/
theorem witness_fetch_sees_stores :
    let s := (((atPc 0x2FE).setI 0x300).setReg 0 0x61).setReg 1 0x23
    ∃ t, exec (.storeRegs 1) s = .next t ∧ t.result = some .ok ∧ (1#4).toNat = (0#4).toNat + 1 ∧
      (1#4).toNat ≤ (1#4).toNat ∧ t.pc.toNat = s.i.toNat + (0#4).toNat ∧ t.fetch = some 0x6123 :=
  ⟨ofNext (exec (.storeRegs 1) ((((atPc 0x2FE).setI 0x300).setReg 0 0x61).setReg 1 0x23)), rfl, by decide, by decide,
    by decide, by decide, by decide⟩

/-- Writing a byte and then its reset value leaves the same list, and both memories are canonical. -/
theorem witness_memory_form :
    let t := (State.reset.setByte 0x300 1).setByte 0x300 0
    t.params = State.reset.params ∧ Memory.wf (resetByte State.reset.params) State.reset.mem ∧
    Memory.wf (resetByte t.params) t.mem ∧ SameMemory State.reset t :=
  ⟨rfl, by decide, by decide, fun _ => rfl⟩

end Sys2Proof.Tests
end

section
/-! PROOFS of the statements on the state (`10_state.md`): the register frames, the reach of the inputs, the invariant.
Each is a case analysis of `ownFault` and `writesOf` through `exec_form`; the lemmas say once what an instruction's
writes leave as they were and what the absence of an own fault excludes. -/

namespace Sys2Proof.Machine

section

variable {s w t : State} {i : Instr}

/-! ### What an instruction's writes leave as they were -/

theorem State.setResultFlag_reg_other {x z : RegIdx} (r : Byte) (c : Bool) (hx : z ≠ x) (hf : z ≠ flagReg) :
    (s.setResultFlag x r c).reg z = s.reg z := by
  rw [State.setResultFlag, State.reg_setReg_other _ hf, State.reg_setReg_other _ hx]

/-- The writes reach no general register outside the table of `10_state.md` R22. -/
theorem writesOf_reg {z : RegIdx} (h : mayWriteReg s z i = false) : (writesOf s i).reg z = s.reg z := by
  cases i
  case ldKey x =>
    cases hk : s.pressedKey with
    | none => simp only [writesOf, hk]
    | some k =>
      have hz : z ≠ x := by simpa [mayWriteReg, State.anyKey_eq, hk] using h
      simp only [writesOf, hk, State.reg_setReg_other _ hz]
  case drw x y n =>
    simp only [mayWriteReg, beq_eq_false_iff_ne] at h
    rw [writesOf, State.reg_setReg_other _ h, State.drawRows_eq]; rfl
  case storeRegs x => rw [writesOf, State.setI_reg, State.storeFrom_eq]; rfl
  case loadRegs x =>
    simp only [mayWriteReg, decide_eq_false_iff_not] at h
    rw [writesOf, State.setI_reg, State.loadFrom_reg _ _ _ (by have := x.isLt; omega), if_neg (by omega)]
  case addReg | subReg | shrReg | subnReg | shlReg =>
    simp only [mayWriteReg, Bool.or_eq_false_iff, beq_eq_false_iff_ne] at h
    obtain ⟨hx, hf⟩ := h
    exact State.setResultFlag_reg_other _ _ hx hf
  case ldImm | addImm | ldReg | orReg | andReg | xorReg | rnd | ldFromDt =>
    simp only [mayWriteReg, beq_eq_false_iff_ne] at h
    exact State.reg_setReg_other _ h
  all_goals rfl

/-- The writes reach no byte outside the stores of `20_memory.md` R57. -/
theorem writesOf_byte {a : Nat} (h : mayStore s a i = false) : (writesOf s i).byte a = s.byte a := by
  cases i
  case call nnn =>
    simp only [mayStore, Bool.or_eq_false_iff, beq_eq_false_iff_ne] at h
    obtain ⟨hhi, hlo⟩ := h
    rw [writesOf, State.push_byte, if_neg hlo, if_neg hhi]
  case bcd x =>
    simp only [mayStore, decide_eq_false_iff_not] at h
    rw [writesOf, State.storeDigits_byte, if_neg (by omega), if_neg (by omega), if_neg (by omega)]
  case storeRegs x =>
    simp only [mayStore, decide_eq_false_iff_not] at h
    rw [writesOf, State.setI_byte, State.storeFrom_byte, if_neg (by omega)]
  case drw x y n => rw [writesOf, State.setReg_byte, State.drawRows_eq]; rfl
  case loadRegs x => rw [writesOf, State.setI_byte, State.loadFrom_eq]; rfl
  case ldKey x => simp only [writesOf]; split <;> rfl
  all_goals rfl

/-- The writes reach I only in the instructions of `10_state.md` R30. -/
theorem writesOf_i (h : writesIndexReg i = false) : (writesOf s i).i = s.i := by
  cases i
  case ldI | addI | ldFont | storeRegs | loadRegs => cases h
  case drw x y n => rw [writesOf, State.setReg_i, State.drawRows_eq]
  case ldKey x => simp only [writesOf]; split <;> rfl
  all_goals rfl

/-- The writes reach SP only in 2nnn and 00EE (`10_state.md` R31). -/
theorem writesOf_sp (h : movesStack i = false) : (writesOf s i).sp = s.sp := by
  cases i
  case call | ret => cases h
  case drw x y n => rw [writesOf, State.setReg_sp, State.drawRows_eq]
  case storeRegs x => rw [writesOf, State.setI_sp, State.storeFrom_eq]
  case loadRegs x => rw [writesOf, State.setI_sp, State.loadFrom_eq]
  case ldKey x => simp only [writesOf]; split <;> rfl
  all_goals rfl

/-- The writes reach the display only in 00E0 and Dxyn (`10_state.md` R38). -/
theorem writesOf_disp (h : drawsDisplay i = false) : (writesOf s i).disp = s.disp := by
  cases i
  case cls | drw => cases h
  case storeRegs x => rw [writesOf, State.setI_disp, State.storeFrom_eq]
  case loadRegs x => rw [writesOf, State.setI_disp, State.loadFrom_eq]
  case ldKey x => simp only [writesOf]; split <;> rfl
  all_goals rfl

/-! ### What the absence of an own fault says (`60_exceptions.md` R223) -/

theorem ownFault_call_eq_none {nnn : Addr} :
    ownFault s (.call nnn) = none ↔ s.sp.toNat < 32 ∧ 0x200 ≤ nnn.toNat ∧ s.pc.toNat + 2 ≤ 0xFFF := by
  simp only [ownFault]
  split_ifs <;> simp <;> omega

theorem ownFault_bcd_eq_none {x : RegIdx} :
    ownFault s (.bcd x) = none ↔ 0x200 ≤ s.i.toNat ∧ s.i.toNat + 2 ≤ 0xFFF := by
  simp only [ownFault]
  split_ifs <;> simp <;> omega

theorem ownFault_storeRegs_eq_none {x : RegIdx} :
    ownFault s (.storeRegs x) = none ↔ 0x200 ≤ s.i.toNat ∧ s.i.toNat + x.toNat ≤ 0xFFF := by
  simp only [ownFault]
  split_ifs <;> simp <;> omega

/-- An instruction's own fault is a fault: its code is not NONE (`60_exceptions.md` R221). -/
theorem ownFault_ne_none : ownFault s i ≠ some .none := by
  cases i
  case call | ret | jp | jpb | drw | bcd | storeRegs | loadRegs | addI | skp | sknp =>
    simp only [ownFault]; split_ifs <;> simp
  all_goals simp [ownFault]

/-- 00EE at SP = 1 answers no next state (log 9), so `exec_form` describes every instruction that does. -/
theorem sp_ne_one_of_exec_next (h : exec i s = .next t) : i = .ret → s.sp.toNat ≠ 1 := by
  rintro rfl e
  have h1 : s.sp = 1 := BitVec.eq_of_toNat_eq e
  simp [exec, execRet, h1] at h

/-- An instruction with an own fault takes it. -/
theorem exec_eq_raise {c : FaultCode} (hsp : i = .ret → s.sp.toNat ≠ 1) (ho : ownFault s i = some c) :
    exec i s = .next (s.raise c (encode i)) := by
  rcases exec_form i hsp with ⟨c', ho', e⟩ | ⟨ho', -⟩
  · cases ho.symm.trans ho'
    exact e
  · cases ho.symm.trans ho'

/-- An instruction with no own fault ends its step with its writes. -/
theorem exec_eq_finish (hsp : i = .ret → s.sp.toNat ≠ 1) (ho : ownFault s i = none) :
    exec i s = .next (s.finish (writesOf s i) (encode i) (nextPc s i) (drawsDisplay i)) := by
  rcases exec_form i hsp with ⟨c', ho', -⟩ | ⟨-, e⟩
  · cases ho.symm.trans ho'
  · exact e

end

/-! ### Register frames -/

/-- Settles O50: a fault writes no register, and a commit writes only what `writesOf` names. -/
theorem registerFrame : Obligations.RegisterFrame := by
  intro i s t z h hz
  rcases exec_next_cases h with ⟨c, rfl⟩ | ⟨hn, -, rfl⟩
  · exact State.raise_reg s c _ z
  · rw [State.finish_reg hn, writesOf_reg hz]

/-- Settles O52: a fault writes the fault record alone, and a commit keeps it and runs the writeback. -/
theorem specialRegisterFrame : Obligations.SpecialRegisterFrame := by
  intro i s t h
  rcases exec_next_cases h with ⟨c, rfl⟩ | ⟨hn, -, rfl⟩
  · exact ⟨fun _ => rfl, fun _ => rfl, fun _ => rfl, by simp, fun _ => ⟨rfl, rfl, rfl, rfl⟩, rfl⟩
  · have hc := finish_writesOf_committed i hn
    refine ⟨fun hi => ?_, fun hs => ?_, fun hd => ?_, fun _ => ⟨hc.record, hc.timers⟩,
      fun hr => absurd hc.ports.result hr, hc.params⟩
    · rw [State.finish_i hn, writesOf_i hi]
    · rw [State.finish_sp hn, writesOf_sp hs]
    · rw [State.finish_disp hn, writesOf_disp hd]

/-! ### The reach of the inputs -/

/-- `s` with other input samples laid out and another count of requests: all that the inputs of a step come from. -/
def State.withSamples (s : State) (samples : List StepInput) (m : Nat) : State :=
  { s with inputs := samples, requests := m }

section

variable {s w t : State} {i : Instr} {samples : List StepInput} {m : Nat}

theorem State.sameMachine_withSamples : SameMachine s (s.withSamples samples m) :=
  ⟨rfl, rfl, rfl, rfl, rfl, rfl, rfl, rfl, rfl, ⟨rfl, rfl, rfl, rfl⟩, rfl⟩

theorem State.drawRows_withSamples (col : Byte) (y n : Nat) :
    (s.withSamples samples m).drawRows col y n = (s.drawRows col y n).withSamples samples m := by
  induction n with
  | zero => rfl
  | succ n ih => simp only [State.drawRows, ih]; rfl

theorem State.drawCollides_withSamples (col : Byte) (y n : Nat) :
    (s.withSamples samples m).drawCollides col y n = s.drawCollides col y n := by
  induction n with
  | zero => rfl
  | succ n ih => simp only [State.drawCollides, ih]; rfl

theorem State.storeFrom_withSamples (a k : Nat) :
    (s.withSamples samples m).storeFrom a k = (s.storeFrom a k).withSamples samples m := by
  induction k with
  | zero => rfl
  | succ k ih => simp only [State.storeFrom, ih]; rfl

theorem State.loadFrom_withSamples (a k : Nat) :
    (s.withSamples samples m).loadFrom a k = (s.loadFrom a k).withSamples samples m := by
  induction k with
  | zero => rfl
  | succ k ih => simp only [State.loadFrom, ih]; rfl

theorem State.timerWriteback_withSamples :
    (s.withSamples samples m).timerWriteback = s.timerWriteback.withSamples samples m := by
  rw [State.timerWriteback, State.timerWriteback, apply_ite (State.withSamples · samples m)]; rfl

theorem State.finish_withSamples (op : Opcode) (next : Nat) (draw : Bool) :
    (s.withSamples samples m).finish (w.withSamples samples m) op next draw =
      (s.finish w op next draw).withSamples samples.tail (m + 1) := by
  by_cases h : next ≤ 0xFFF
  · rw [State.finish_commit draw h, State.finish_commit draw h]
    change ((w.setPc (BitVec.ofNat 12 next)).withSamples samples m).timerWriteback.answer .ok draw = _
    rw [State.timerWriteback_withSamples]; rfl
  · rw [State.finish_fault draw (by omega), State.finish_fault draw (by omega)]; rfl

theorem State.pressedKey_withSamples (hk : (s.withSamples samples m).keys = s.keys) :
    (s.withSamples samples m).pressedKey = s.pressedKey := by
  simp only [State.pressedKey, State.isPressed, hk]; rfl

/-- No check of an instruction before its next PC reads an input. -/
theorem ownFault_withSamples : ownFault (s.withSamples samples m) i = ownFault s i := by
  cases i <;> rfl

/-- The next PC reads the keys in Ex9E, ExA1 and Fx0A alone, and no random byte. -/
theorem nextPc_withSamples (hk : readsKeys i = true → (s.withSamples samples m).keys = s.keys) :
    nextPc (s.withSamples samples m) i = nextPc s i := by
  cases i
  case skp x | sknp x => simp only [nextPc, skipHolds, hk rfl]; rfl
  case ldKey x => simp only [nextPc, State.anyKey_eq, State.pressedKey_withSamples (hk rfl)]; rfl
  all_goals rfl

/-- The writes read the random byte in Cxkk alone, and the keys in Fx0A. -/
theorem writesOf_withSamples (hr : readsRand i = true → (s.withSamples samples m).rand = s.rand)
    (hk : readsKeys i = true → (s.withSamples samples m).keys = s.keys) :
    writesOf (s.withSamples samples m) i = (writesOf s i).withSamples samples m := by
  cases i
  case rnd x kk => simp only [writesOf, hr rfl]; rfl
  case ldKey x =>
    simp only [writesOf, State.pressedKey_withSamples (hk rfl)]
    cases s.pressedKey <;> rfl
  case drw x y n => simp only [writesOf, State.drawRows_withSamples, State.drawCollides_withSamples]; rfl
  case storeRegs x => simp only [writesOf, State.storeFrom_withSamples]; rfl
  case loadRegs x => simp only [writesOf, State.loadFrom_withSamples]; rfl
  all_goals rfl

/-- An instruction whose own inputs agree takes two machines that differ in their samples alone to two such machines. -/
theorem exec_withSamples (hr : readsRand i = true → (s.withSamples samples m).rand = s.rand)
    (hk : readsKeys i = true → (s.withSamples samples m).keys = s.keys) (h : exec i s = .next t) :
    exec i (s.withSamples samples m) = .next (t.withSamples samples.tail (m + 1)) := by
  have hsp := sp_ne_one_of_exec_next h
  cases ho : ownFault s i with
  | some c =>
    cases h.symm.trans (exec_eq_raise hsp ho)
    exact exec_eq_raise hsp (ownFault_withSamples.trans ho)
  | none =>
    cases h.symm.trans (exec_eq_finish hsp ho)
    rw [exec_eq_finish (s := s.withSamples samples m) hsp (ownFault_withSamples.trans ho), writesOf_withSamples hr hk,
      nextPc_withSamples hk, State.finish_withSamples]

end

/-- Settles O53: the end states differ in their samples and the count of requests alone. -/
theorem inputsReachTheirReadersAlone : Obligations.InputsReachTheirReadersAlone := by
  intro i s t samples m hr hk h
  exact ⟨_, exec_withSamples hr hk h, State.sameMachine_withSamples, rfl, rfl⟩

/-! ### The invariant -/

/-- A legal period is positive (`00_scope.md` R10). -/
theorem timerPeriod_pos_of_wf {p : Params} (h : p.wf = true) : 0 < p.timerPeriod := by
  simp only [Params.wf, Params.periodOk, Bool.and_eq_true, decide_eq_true_eq] at h
  obtain ⟨⟨hpos, -⟩, -⟩ := h
  exact hpos

section

variable {s t : State} {i : Instr}

/-- SP is even, so it is not 1 (`10_state.md` R31). -/
theorem Inv.sp_ne_one (h : Inv s) : s.sp.toNat ≠ 1 := by
  have := h.spEven
  omega

/-- The ports and the model's own fields are no part of the invariant. -/
theorem Inv.answer (h : Inv s) (r : StepResult) (draw : Bool) : Inv (s.answer r draw) :=
  ⟨h.params, h.mem, h.spEven, h.spMax, h.frames, h.pcLow, h.divider, h.lowBytes, h.record, h.faultPc⟩

/-- The entry of a fault keeps the invariant (`60_exceptions.md` R222). -/
theorem Inv.raise (h : Inv s) {c : FaultCode} (hc : c ≠ .none) (op : Opcode) : Inv (s.raise c op) :=
  ⟨h.params, h.mem, h.spEven, h.spMax, h.frames, h.pcLow, h.divider, h.lowBytes, by simp [hc], fun _ => rfl⟩

/-- Below 0x200 an instruction without an own fault stores at most the frame at SP (`20_memory.md` R57, R58). -/
theorem mayStore_low_eq_false {a : Nat} (ho : ownFault s i = none) (ha : a < 0x200)
    (hs : s.sp.toNat < 32 → a < s.sp.toNat ∨ s.sp.toNat + 1 < a) : mayStore s a i = false := by
  cases i
  case call nnn =>
    obtain ⟨hlt, -, -⟩ := ownFault_call_eq_none.mp ho
    simp only [mayStore, Bool.or_eq_false_iff, beq_eq_false_iff_ne]; omega
  case bcd x => obtain ⟨hi, -⟩ := ownFault_bcd_eq_none.mp ho; simp only [mayStore, decide_eq_false_iff_not]; omega
  case storeRegs x =>
    obtain ⟨hi, -⟩ := ownFault_storeRegs_eq_none.mp ho; simp only [mayStore, decide_eq_false_iff_not]; omega
  all_goals rfl

theorem State.setHalf_wf {a : Nat} (w : BitVec 16) (hm : Memory.wf (resetByte s.params) s.mem) (ha : a + 1 < memSize) :
    Memory.wf (resetByte s.params) (s.setHalf a w).mem :=
  Memory.wf_write (Memory.wf_write hm (by omega)) ha

theorem State.storeDigits_wf {a : Nat} (b : Byte) (hm : Memory.wf (resetByte s.params) s.mem) (ha : a + 2 < memSize) :
    Memory.wf (resetByte s.params) (s.storeDigits a b).mem :=
  Memory.wf_write (Memory.wf_write (Memory.wf_write hm (by omega)) (by omega)) ha

/-- The writes keep memory canonical: each address is inside memory. -/
theorem writesOf_wf (hm : Memory.wf (resetByte s.params) s.mem) (ho : ownFault s i = none) :
    Memory.wf (resetByte s.params) (writesOf s i).mem := by
  cases i
  case call nnn =>
    obtain ⟨hs, -, -⟩ := ownFault_call_eq_none.mp ho
    exact State.setHalf_wf _ hm (by rw [memSize]; omega)
  case bcd x =>
    obtain ⟨-, hi⟩ := ownFault_bcd_eq_none.mp ho
    exact State.storeDigits_wf _ hm (by rw [memSize]; omega)
  case storeRegs x =>
    obtain ⟨-, hi⟩ := ownFault_storeRegs_eq_none.mp ho
    exact State.storeFrom_wf _ _ hm (by rw [memSize]; omega)
  case drw x y n => rw [writesOf, State.setReg_mem, State.drawRows_eq]; exact hm
  case loadRegs x => rw [writesOf, State.setI_mem, State.loadFrom_eq]; exact hm
  case ldKey x => simp only [writesOf]; split <;> exact hm
  all_goals exact hm

/-- A push moves SP up by one frame (`41_control_flow.md` R111). -/
theorem State.push_sp_toNat (w : BitVec 16) (h : s.sp.toNat < 32) : (s.push w).sp.toNat = s.sp.toNat + 2 := by
  rw [State.push, State.setSp_sp]
  bv_omega

/-- A pop moves SP down by one frame (`41_control_flow.md` R112). -/
theorem State.dropFrame_sp_toNat (h : 2 ≤ s.sp.toNat) : s.dropFrame.sp.toNat = s.sp.toNat - 2 := by
  rw [State.dropFrame, State.setSp_sp]
  bv_omega

theorem State.frame_eq_half (k : Nat) : s.frame k = (s.half (2 * k)).toNat := (State.half_toNat _).symm

/-- A push makes its word the frame at SP (`41_control_flow.md` R110, R111). -/
theorem State.push_frame (w : BitVec 16) {k : Nat} (h : s.sp.toNat = 2 * k) : (s.push w).frame k = w.toNat := by
  rw [State.frame_eq_half, State.half, State.push_byte, State.push_byte, h, if_neg (by omega), if_pos rfl, if_pos rfl]
  exact congrArg BitVec.toNat (Opcode.hi_append_lo w)

/-- The top frame is 00EE's next PC (`41_control_flow.md` R113). -/
theorem nextPc_ret {k : Nat} (h : s.sp.toNat = 2 * k + 2) : nextPc s .ret = s.frame k := by
  rw [nextPc, State.frame, h]; rfl

/-- 00EE without an own fault has a frame to pop. -/
theorem Inv.two_le_sp (h : Inv s) (ho : ownFault s .ret = none) : 2 ≤ s.sp.toNat := by
  have := h.sp_ne_one
  have : s.sp.toNat ≠ 0 := fun e => by simp [ownFault, e] at ho
  omega

/-- The writes keep SP even and at most 32: only a push and a pop move it, by one frame each. -/
theorem Inv.writesOf_sp_bounds (h : Inv s) (ho : ownFault s i = none) :
    (writesOf s i).sp.toNat % 2 = 0 ∧ (writesOf s i).sp.toNat ≤ 32 := by
  have he := h.spEven
  have hm := h.spMax
  cases hi : movesStack i with
  | false => rw [writesOf_sp hi]; exact ⟨he, hm⟩
  | true =>
    cases i
    case call nnn =>
      obtain ⟨hs, -, -⟩ := ownFault_call_eq_none.mp ho
      rw [writesOf, State.push_sp_toNat _ hs]; omega
    case ret => rw [writesOf, State.dropFrame_sp_toNat (h.two_le_sp ho)]; omega
    all_goals cases hi

/-- The writes leave the frames that were on the stack. -/
theorem Inv.writesOf_frame (h : Inv s) (ho : ownFault s i = none) {k : Nat} (hk : 2 * k + 2 ≤ s.sp.toNat) :
    (writesOf s i).frame k = s.frame k := by
  have hm := h.spMax
  rw [State.frame, State.frame, writesOf_byte (mayStore_low_eq_false ho (by omega) (by omega)),
    writesOf_byte (mayStore_low_eq_false ho (by omega) (by omega))]

/-- Every frame below the new SP is an old one, or the call's own return address (`41_control_flow.md` R113). -/
theorem Inv.writesOf_frames (h : Inv s) (ho : ownFault s i = none) (k : Nat)
    (hk : 2 * k + 2 ≤ (writesOf s i).sp.toNat) : 0x202 ≤ (writesOf s i).frame k ∧ (writesOf s i).frame k ≤ 0xFFF := by
  by_cases hold : 2 * k + 2 ≤ s.sp.toNat
  · rw [h.writesOf_frame ho hold]
    exact h.frames k hold
  · have he := h.spEven
    cases hi : movesStack i with
    | false => rw [writesOf_sp hi] at hk; omega
    | true =>
      cases i
      case call nnn =>
        obtain ⟨hs, -, hpc⟩ := ownFault_call_eq_none.mp ho
        have hlow := h.pcLow
        rw [writesOf, State.push_sp_toNat _ hs] at hk
        rw [writesOf, State.push_frame _ (by omega), BitVec.toNat_ofNat, State.seq]
        omega
      case ret => rw [writesOf, State.dropFrame_sp_toNat (h.two_le_sp ho)] at hk; omega
      all_goals cases hi

/-- No next PC lies in the reserved low memory (`10_state.md` R26): a target is checked, a return address was pushed by a
call, and every other instruction goes forward or stays. -/
theorem Inv.nextPc_ge (h : Inv s) (ho : ownFault s i = none) : 0x200 ≤ nextPc s i := by
  cases i
  case ret =>
    have he := h.spEven
    have hs := h.two_le_sp ho
    obtain ⟨hlo, -⟩ := h.frames (s.sp.toNat / 2 - 1) (by omega)
    rw [nextPc_ret (k := s.sp.toNat / 2 - 1) (by omega)]
    omega
  case call nnn =>
    obtain ⟨-, htarget, -⟩ := ownFault_call_eq_none.mp ho
    exact htarget
  case jp nnn | jpb nnn =>
    by_contra hlt
    cases ho.symm.trans (if_pos (Nat.lt_of_not_le hlt))
  all_goals exact h.pcLow.trans (Nat.le_add_right _ _)

/-- A commit of an instruction's writes keeps the invariant. -/
theorem Inv.finish (h : Inv s) (hh : s.halted = false) (ho : ownFault s i = none) (hn : nextPc s i ≤ 0xFFF) :
    Inv (s.finish (writesOf s i) (encode i) (nextPc s i) (drawsDisplay i)) := by
  have hc := finish_writesOf_committed i hn
  obtain ⟨heven, hmax⟩ := h.writesOf_sp_bounds ho
  constructor
  case params => rw [hc.params]; exact h.params
  case mem => rw [hc.params, State.finish_mem hn]; exact writesOf_wf h.mem ho
  case spEven => rw [State.finish_sp hn]; exact heven
  case spMax => rw [State.finish_sp hn]; exact hmax
  case frames =>
    intro k hk
    rw [State.finish_sp hn] at hk
    simp only [State.frame, State.finish_byte hn]
    exact h.writesOf_frames ho k hk
  case pcLow => rw [hc.pc]; exact h.nextPc_ge ho
  case divider =>
    rw [hc.timers.divider, hc.params]
    exact Nat.mod_lt _ (Nat.zero_lt_of_lt h.divider)
  case lowBytes =>
    intro a hlo hhi
    have he := h.spEven
    rw [State.finish_byte hn, hc.params, writesOf_byte (mayStore_low_eq_false ho hhi (by omega))]
    exact h.lowBytes a hlo hhi
  case record => rw [hc.record.halted, hc.record.code]; exact h.record
  case faultPc => rw [hc.record.halted, hh]; exact nofun

/-- Executing an instruction keeps the invariant: it takes its first own fault, or PC_RANGE, or it commits. -/
theorem Inv.exec (h : Inv s) (hh : s.halted = false) (he : exec i s = .next t) : Inv t := by
  have hsp : i = .ret → s.sp.toNat ≠ 1 := fun _ => h.sp_ne_one
  cases ho : ownFault s i with
  | some c =>
    cases he.symm.trans (exec_eq_raise hsp ho)
    exact h.raise (fun e => ownFault_ne_none (e ▸ ho)) _
  | none =>
    cases he.symm.trans (exec_eq_finish hsp ho)
    by_cases hn : nextPc s i ≤ 0xFFF
    · exact h.finish hh ho hn
    · rw [State.finish_fault _ (by omega)]
      exact h.raise (by decide) _

end

/-- Settles O54: a step answers as halted, faults before it executes, or executes the instruction at PC. -/
theorem stepKeepsInvariant : Obligations.StepKeepsInvariant := by
  intro s t h hstep
  rcases step_next_cases hstep with ⟨-, rfl⟩ | ⟨-, -, rfl⟩ | ⟨-, -, -, rfl⟩ | ⟨hh, -, i, -, he⟩
  · exact h.answer _ _
  · exact h.raise (by decide) _
  · exact h.raise (by decide) _
  · exact h.exec hh he

/-- Settles O2: at reset the stack is empty, memory is unwritten and a legal period is positive. -/
theorem resetMeetsInvariant : Obligations.ResetMeetsInvariant := by
  refine ⟨by decide, fun p hp => ?_⟩
  constructor
  case params => exact hp
  case mem => exact Memory.wf_nil
  case frames => intro k hk; simp [State.resetWith] at hk
  case divider => exact timerPeriod_pos_of_wf hp
  case lowBytes => exact fun _ _ _ => rfl
  case record => simp [State.resetWith]
  case faultPc => exact nofun
  case spEven => rfl
  case spMax => exact Nat.zero_le _
  case pcLow => exact Nat.le_refl _

/-- Settles O16: the pop would start at address -1, and SP is even under the invariant. -/
theorem returnStopsWhenSpIsOne : Obligations.ReturnStopsWhenSpIsOne := by
  refine ⟨fun s hs => ?_, fun s h => h.sp_ne_one⟩
  have h1 : s.sp = 1 := BitVec.eq_of_toNat_eq hs
  simp [exec, execRet, h1]

end Sys2Proof.Machine
end

section
/-! PROOFS of the statements on main memory (`20_memory.md`): which bytes a step can change, that a fetch reads what was
stored, and that a memory has one canonical list of cells. -/

namespace Sys2Proof.Machine

/-! ### Which bytes change -/

/-- Settles O51: a fault writes no byte, and a commit writes only what `writesOf` stores. -/
theorem memoryFrame : Obligations.MemoryFrame := by
  intro i s t a h ha
  rcases exec_next_cases h with ⟨c, rfl⟩ | ⟨hn, -, rfl⟩
  · exact State.raise_byte s c _ a
  · rw [State.finish_byte hn, writesOf_byte ha]

/-- Executing an instruction with SP even reaches no byte from 0x020 to 0x1FF: a fault writes no byte, an indexed store
starts at 0x200 or above (`20_memory.md` R58), and a push needs SP below 32. -/
theorem exec_low_byte {s t : State} {i : Instr} {a : Nat} (h : exec i s = .next t) (hsp : s.sp.toNat % 2 = 0)
    (hlo : 0x20 ≤ a) (hhi : a < 0x200) : t.byte a = s.byte a := by
  rcases exec_next_cases h with ⟨c, rfl⟩ | ⟨-, ho, -⟩
  · exact State.raise_byte s c _ a
  · exact memoryFrame i s t a h (mayStore_low_eq_false ho hhi (by omega))

/-- Settles O57: a step that executes no instruction writes no byte. -/
theorem lowMemoryNeverChanges : Obligations.LowMemoryNeverChanges := by
  intro s t a hsp hstep hlo hhi
  rcases step_next_cases hstep with ⟨-, rfl⟩ | ⟨-, -, rfl⟩ | ⟨-, -, -, rfl⟩ | ⟨-, -, i, -, he⟩
  · exact State.answer_byte s _ _ a
  · exact State.raise_byte s _ _ a
  · exact State.raise_byte s _ _ a
  · exact exec_low_byte he hsp hlo hhi

/-! ### Fetching what was stored -/

section

variable {s t : State} {x z w : RegIdx}

/-- A completed Fx55 had its bytes inside memory and left each of its registers at I on (`44_index_memory.md` R175). -/
theorem exec_storeRegs_byte (h : exec (.storeRegs x) s = .next t) (hok : t.result = some .ok) :
    s.i.toNat + x.toNat ≤ 0xFFF ∧ ∀ z : RegIdx, z.toNat ≤ x.toNat → t.byte (s.i.toNat + z.toNat) = s.reg z := by
  rcases exec_next_cases h with ⟨c, rfl⟩ | ⟨hn, ho, rfl⟩
  · simp at hok
  · obtain ⟨-, hmax⟩ := ownFault_storeRegs_eq_none.mp ho
    refine ⟨hmax, fun z hz => ?_⟩
    rw [State.finish_byte hn, writesOf, State.setI_byte, State.storeFrom_byte, if_pos (by omega), Nat.add_sub_cancel_left,
      BitVec.ofNat_toNat, BitVec.setWidth_eq]

/-- A fetch inside memory reads the two bytes at PC, high byte first (`20_memory.md` R53). -/
theorem State.fetch_eq_some (h : s.pc.toNat ≤ 0xFFE) :
    s.fetch = some (s.byte s.pc.toNat ++ s.byte (s.pc.toNat + 1)) :=
  if_neg (Nat.not_lt.mpr h)

end

/-- Settles O59: PC is at the byte of `V[z]`, and the next byte is that of `V[z + 1]`. -/
theorem fetchSeesStores : Obligations.FetchSeesStores := by
  intro s t x z w h hok hw hwx hpc
  obtain ⟨hmax, hbyte⟩ := exec_storeRegs_byte h hok
  have hnext : t.pc.toNat + 1 = s.i.toNat + w.toNat := by omega
  rw [State.fetch_eq_some (by omega), hnext, hpc, hbyte z (by omega), hbyte w hwx]

/-! ### The canonical form (log 18) -/

section

variable {d : Nat → Byte} {m n : Memory} {a : Nat}

/-- A cell of a memory with rising addresses is what its address reads as. -/
theorem Memory.read_of_mem {c : Host.Cell} (hm : List.Pairwise (fun p q : Host.Cell => p.1 < q.1) m) (hc : c ∈ m) :
    Memory.read d m c.1 = c.2 := by
  induction m with
  | nil => cases hc
  | cons e m ih =>
    obtain ⟨hhead, htail⟩ := List.pairwise_cons.mp hm
    rcases List.mem_cons.mp hc with rfl | hc
    · exact if_pos rfl
    · rw [Memory.read, if_neg (hhead c hc).ne, ih htail hc]

/-- An address that does not read as unlisted has a cell. -/
theorem Memory.mem_of_read_ne (h : Memory.read d m a ≠ d a) : (a, Memory.read d m a) ∈ m := by
  induction m with
  | nil => exact absurd rfl h
  | cons e m ih =>
    by_cases he : e.1 = a
    · rw [Memory.read, if_pos he, ← he]
      exact List.mem_cons_self
    · rw [Memory.read, if_neg he] at h ⊢
      exact List.mem_cons_of_mem e (ih h)

/-- The cells of a canonical memory are what its addresses read as, where that differs from the unlisted byte. -/
theorem Memory.mem_iff_read (hm : Memory.wf d m) (c : Host.Cell) :
    c ∈ m ↔ Memory.read d m c.1 = c.2 ∧ c.2 ≠ d c.1 := by
  obtain ⟨hrising, hcells⟩ := hm
  constructor
  · exact fun hc => ⟨Memory.read_of_mem hrising hc, (hcells c hc).2⟩
  · rintro ⟨hr, hne⟩
    have := Memory.mem_of_read_ne (hr.trans_ne hne)
    rwa [hr] at this

/-- Canonical memories with the same bytes are one list: both rise, and `Memory.mem_iff_read` gives them the same
cells. -/
theorem Memory.eq_of_read_eq (hm : Memory.wf d m) (hn : Memory.wf d n)
    (h : ∀ a, Memory.read d m a = Memory.read d n a) : m = n := by
  have : Std.Irrefl (fun p q : Host.Cell => p.1 < q.1) := ⟨fun p => lt_irrefl p.1⟩
  have : Std.Antisymm (fun p q : Host.Cell => p.1 < q.1) := ⟨fun p q hpq hqp => absurd hqp hpq.not_gt⟩
  refine hm.1.eq_of_mem_iff hn.1 fun c => ?_
  rw [Memory.mem_iff_read hm, Memory.mem_iff_read hn, h]

end

/-- Settles O60: the two states' canonical memories read the same over the same unlisted bytes. -/
theorem memoryFormIsUnique : Obligations.MemoryFormIsUnique := by
  intro s t hp hs ht h
  refine Memory.eq_of_read_eq (d := resetByte s.params) (hp ▸ ht) hs fun a => ?_
  have := h a
  rwa [State.byte, State.byte, hp] at this

end Sys2Proof.Machine
end

section
/-! PROOFS of the statements on the encoding (`30_encoding.md`): `encode` and `decodeWord` are inverse to each other, and
the words that decode are those that a row of the opcode map covers. -/

namespace Sys2Proof

section

variable {op : Opcode} {i : Instr} {o x y n : BitVec 4} {kk : Byte}

/-! ### A word put together from fields it is known to have -/

theorem Opcode.addr_eq (ho : op.o = o) : o ++ op.nnn = op := by rw [← ho, op.eq_addr]

theorem Opcode.xkk_eq (ho : op.o = o) (hkk : op.kk = kk) : o ++ op.x ++ kk = op := by
  rw [← ho, ← hkk, op.eq_xkk]

theorem Opcode.xyn_eq (ho : op.o = o) (hn : op.n = n) : o ++ op.x ++ op.y ++ n = op := by
  rw [← ho, ← hn, op.eq_xyn]

/-! ### The decoder and the encoder are inverse to each other -/

/-- The decoder reads the word of an instruction back: the fields of the word (`Laws/Decode.lean`) select the
instruction's case, in families 8 and F through the secondary nibble or byte, and are its operands. -/
theorem decodeWord_encode (i : Instr) : decodeWord (encode i) = some i := by
  cases i
  case cls | ret => rfl
  case ldReg | orReg | andReg | xorReg | addReg | subReg | shrReg | subnReg | shlReg =>
    simp [encode, decodeWord, decode8]
  case ldFromDt | ldKey | ldToDt | ldToSt | addI | ldFont | bcd | storeRegs | loadRegs =>
    simp [encode, decodeWord, decodeF]
  all_goals simp [encode, decodeWord]

theorem encode_of_decode8 (h : decode8 x y n = some i) : encode i = 0x8#4 ++ x ++ y ++ n := by
  unfold decode8 at h
  split at h <;> cases h <;> rfl

theorem encode_of_decodeF (h : decodeF x kk = some i) : encode i = 0xF#4 ++ x ++ kk := by
  unfold decodeF at h
  split at h <;> cases h <;> rfl

/-- A word that decodes is put together again from the fields that its instruction keeps. The cases `h_1` to `h_16` are
the top nibbles 0 to F. -/
theorem encode_of_decodeWord (h : decodeWord op = some i) : encode i = op := by
  unfold decodeWord at h
  split at h <;> rename_i ho
  case h_1 => split_ifs at h with hop hop <;> cases h <;> exact hop.symm
  case h_2 | h_3 | h_11 | h_12 => cases h; exact Opcode.addr_eq ho
  case h_4 | h_5 | h_7 | h_8 | h_13 => cases h; exact Opcode.xkk_eq ho rfl
  case h_14 => cases h; exact Opcode.xyn_eq ho rfl
  case h_6 | h_10 => split_ifs at h with hn; cases h; exact Opcode.xyn_eq ho hn
  case h_9 => exact (encode_of_decode8 h).trans (Opcode.xyn_eq ho rfl)
  case h_15 => split_ifs at h with hkk hkk <;> cases h <;> exact Opcode.xkk_eq ho hkk
  case h_16 => exact (encode_of_decodeF h).trans (Opcode.xkk_eq ho rfl)
  case h_17 => cases h

end

/-- Settles O12: the two bytes are the word, and the decoder reads the word of an instruction back. -/
theorem decodeOfEncode : Obligations.DecodeOfEncode := by
  intro i rest _
  simp only [encodeBytes, List.cons_append, List.nil_append, decode, Opcode.hi_append_lo, decodeWord_encode]

/-- Settles O13: each case of the decoder keeps every field that its format leaves free. -/
theorem encodeOfDecode : Obligations.EncodeOfDecode := fun _ _ => encode_of_decodeWord

/-! ### The opcode map -/

section

variable {op : Opcode} {i : Instr} {r q : OpcodeRow}

/-- Every instruction's word is of its own row. -/
theorem encodesInRow (i : Instr) : Laws.EncodesInRow.Statement i := by
  open Laws.EncodesInRow in
  cases i
  exacts [cls, ret, jp _, call _, seImm _ _, sneImm _ _, seReg _ _, ldImm _ _, addImm _ _, ldReg _ _, orReg _ _,
    andReg _ _, xorReg _ _, addReg _ _, subReg _ _, shrReg _ _, subnReg _ _, shlReg _ _, sneReg _ _, ldI _, jpb _,
    rnd _ _, drw _ _ _, skp _, sknp _, ldFromDt _, ldKey _, ldToDt _, ldToSt _, addI _, ldFont _, bcd _, storeRegs _,
    loadRegs _]

theorem OpcodeRow.covers_iff : r.covers op = true ↔ op &&& r.mask = r.value := beq_iff_eq

theorem Opcode.legal_iff : op.legal = true ↔ ∃ r ∈ opcodeMap, r.covers op = true := List.any_eq_true

/-- Two rows that cover one word agree on the bits that both fix. -/
theorem OpcodeRow.value_and_mask_eq (hr : r.covers op = true) (hq : q.covers op = true) :
    r.value &&& q.mask = q.value &&& r.mask := by
  rw [← OpcodeRow.covers_iff.mp hr, ← OpcodeRow.covers_iff.mp hq, BitVec.and_assoc, BitVec.and_assoc,
    BitVec.and_comm r.mask]

/-- Two different rows of the map differ in a bit that both fix. -/
theorem eq_of_mem_opcodeMap : ∀ r ∈ opcodeMap, ∀ q ∈ opcodeMap, r.value &&& q.mask = q.value &&& r.mask → r = q := by
  decide

/-- A field that a row fixes has the row's value in every word that the row covers. -/
theorem OpcodeRow.field_of_covers {a w : Nat} (h : r.covers op = true)
    (hm : r.mask.extractLsb' a w = BitVec.allOnes w) : op.extractLsb' a w = r.value.extractLsb' a w := by
  rw [← OpcodeRow.covers_iff.mp h, BitVec.extractLsb'_and, hm, BitVec.and_allOnes]

/-- A row that fixes the whole word covers only its value. -/
theorem OpcodeRow.eq_value_of_covers (h : r.covers op = true) (hm : r.mask = BitVec.allOnes 16) : op = r.value := by
  rw [← OpcodeRow.covers_iff.mp h, hm, BitVec.and_allOnes]

/-! The rows of each part of the map fix the fields that the decoder looks at, so it decodes their words. -/

theorem decodeWord_isSome_of_plain (hr : r ∈ opcodeMapPlain) (h : r.covers op = true) : (decodeWord op).isSome := by
  have ho : r.mask.o = _ → op.o = r.value.o := OpcodeRow.field_of_covers h
  fin_cases hr
  · exact OpcodeRow.eq_value_of_covers h rfl ▸ rfl
  · exact OpcodeRow.eq_value_of_covers h rfl ▸ rfl
  all_goals rw [decodeWord, ho (by decide)]; rfl

theorem decodeWord_isSome_of_nibble (hr : r ∈ opcodeMapNibble) (h : r.covers op = true) : (decodeWord op).isSome := by
  have ho : r.mask.o = _ → op.o = r.value.o := OpcodeRow.field_of_covers h
  have hn : r.mask.n = _ → op.n = r.value.n := OpcodeRow.field_of_covers h
  fin_cases hr
  all_goals rw [decodeWord, ho (by decide), hn (by decide)]; rfl

theorem decodeWord_isSome_of_byte (hr : r ∈ opcodeMapByte) (h : r.covers op = true) : (decodeWord op).isSome := by
  have ho : r.mask.o = _ → op.o = r.value.o := OpcodeRow.field_of_covers h
  have hkk : r.mask.kk = _ → op.kk = r.value.kk := OpcodeRow.field_of_covers h
  fin_cases hr
  all_goals rw [decodeWord, ho (by decide), hkk (by decide)]; rfl

/-- An instruction is decoded only from a word that its own row covers. -/
theorem row_of_decodeWord (h : decodeWord op = some i) :
    ∃ r ∈ opcodeMap, r.mnemonic = i.mnemonic ∧ r.covers op = true :=
  encode_of_decodeWord h ▸ encodesInRow i

/-- The words that decode are the legal ones (`30_encoding.md` R77). -/
theorem decodeWord_isSome_iff : (decodeWord op).isSome ↔ op.legal = true := by
  rw [Opcode.legal_iff]
  constructor
  · intro h
    obtain ⟨i, hi⟩ := Option.isSome_iff_exists.mp h
    obtain ⟨r, hr, -, hc⟩ := row_of_decodeWord hi
    exact ⟨r, hr, hc⟩
  · rintro ⟨r, hr, hc⟩
    simp only [opcodeMap, List.mem_append] at hr
    obtain hr | hr | hr := hr
    · exact decodeWord_isSome_of_plain hr hc
    · exact decodeWord_isSome_of_nibble hr hc
    · exact decodeWord_isSome_of_byte hr hc

end

/-- Settles O14: rows that cover one word agree where both fix it, so they are one row; the word of an instruction is of
its own row; and the words that decode are the covered ones. -/
theorem decoderFollowsOpcodeMap : Obligations.DecoderFollowsOpcodeMap := by
  intro op
  refine ⟨fun r hr q hq hrc hqc => ?_, fun i hi => row_of_decodeWord hi, ?_⟩
  · exact eq_of_mem_opcodeMap r hr q hq (OpcodeRow.value_and_mask_eq hrc hqc)
  · rw [← Option.not_isSome_iff_eq_none, decodeWord_isSome_iff, Bool.not_eq_true]

/-- Settles O11: each word is evaluated. -/
theorem sampleWordsDecode : Obligations.SampleWordsDecode := by
  refine ⟨?_, ?_, ?_⟩ <;> decide

end Sys2Proof
end

section
/-! PROOFS of the statements on the step (`40_step.md`): an equation of `step` for each way a request can go, what every
step does to the model's own fields, the first fault or the completion of an instruction, and the key queries. -/

namespace Sys2Proof.Machine

section

variable {s t : State} {i : Instr} {op : Opcode}

/-! ### One equation of `step` for each way a request can go (`40_step.md` R102) -/

theorem step_of_halted (hh : s.halted = true) : step s = .next s.answerHalted := by
  rw [step, State.fetched, if_pos hh]

theorem step_of_fetch_eq_none (hh : s.halted = false) (hf : s.fetch = none) :
    step s = .next (s.raise .memRange 0) := by
  simp only [step, State.fetched, hh, hf, Bool.false_eq_true, if_false]

theorem step_of_decodeWord_eq_none (hh : s.halted = false) (hf : s.fetch = some op) (hd : decodeWord op = none) :
    step s = .next (s.raise .unknownOpcode op) := by
  simp only [step, State.fetched, hh, hf, hd, Bool.false_eq_true, if_false]

theorem step_of_decodeWord_eq_some (hh : s.halted = false) (hf : s.fetch = some op) (hd : decodeWord op = some i) :
    step s = exec i s := by
  simp only [step, State.fetched, hh, hf, hd, Bool.false_eq_true, if_false]

theorem State.fetch_eq_none (h : 0xFFE < s.pc.toNat) : s.fetch = none := if_pos h

/-- Two bytes decode to what their word decodes to (`20_memory.md` R53). -/
theorem decodeWord_of_decode {hi lo : Byte} {rest : List Byte} (h : decode [hi, lo] = .ok (i, rest)) :
    decodeWord (hi ++ lo) = some i := by
  cases hd : decodeWord (hi ++ lo) <;> simp only [decode, hd] at h <;> cases h
  rfl

/-! ### What every step does beside its instruction -/

/-- The ports and the model's own fields are no field of the machine. -/
theorem State.sameMachine_answer (r : StepResult) (draw : Bool) : SameMachine s (s.answer r draw) :=
  ⟨rfl, rfl, rfl, rfl, rfl, rfl, rfl, rfl, rfl, ⟨rfl, rfl, rfl, rfl⟩, rfl⟩

/-- An instruction that answers counts its request, uses its sample up and closes the load window (log 3, log 4,
log 5). -/
theorem exec_bookkeeping (h : exec i s = .next t) :
    t.requests = s.requests + 1 ∧ t.inputs = s.inputs.tail ∧ t.loadOpen = false := by
  rcases exec_next_cases h with ⟨c, rfl⟩ | ⟨hn, -, rfl⟩
  · exact ⟨rfl, rfl, rfl⟩
  · obtain ⟨-, -, -, hreq, hin, -, -⟩ := writesOf_book s i
    rw [← hreq, ← hin]
    exact State.finish_bookkeeping hn

/-- Every step counts its request, uses its sample up and closes the load window (log 3, log 4, log 5). -/
theorem step_bookkeeping (h : step s = .next t) :
    t.requests = s.requests + 1 ∧ t.inputs = s.inputs.tail ∧ t.loadOpen = false := by
  rcases step_next_cases h with ⟨-, rfl⟩ | ⟨-, -, rfl⟩ | ⟨-, -, -, rfl⟩ | ⟨-, -, i, -, he⟩
  · exact ⟨rfl, rfl, rfl⟩
  · exact ⟨rfl, rfl, rfl⟩
  · exact ⟨rfl, rfl, rfl⟩
  · exact exec_bookkeeping he

theorem exec_params (h : exec i s = .next t) : t.params = s.params := by
  rcases exec_next_cases h with ⟨c, rfl⟩ | ⟨hn, -, rfl⟩
  · rfl
  · exact (finish_writesOf_committed i hn).params

/-- No step changes a parameter (`00_scope.md` R10, log 1). -/
theorem step_params (h : step s = .next t) : t.params = s.params := by
  rcases step_next_cases h with ⟨-, rfl⟩ | ⟨-, -, rfl⟩ | ⟨-, -, -, rfl⟩ | ⟨-, -, i, -, he⟩
  · rfl
  · rfl
  · rfl
  · exact exec_params he

/-! ### The first fault (`60_exceptions.md` R223) -/

/-- A fault of execution is an own fault, or PC_RANGE after all of them. -/
theorem faultOf_eq_some {c : FaultCode} :
    faultOf s i = some c ↔ ownFault s i = some c ∨ ownFault s i = none ∧ 0xFFF < nextPc s i ∧ c = .pcRange := by
  cases ho : ownFault s i with
  | some c' => simp [faultOf, ho]
  | none => simp [faultOf, ho, eq_comm]

theorem faultOf_eq_none : faultOf s i = none ↔ ownFault s i = none ∧ nextPc s i ≤ 0xFFF := by
  cases ho : ownFault s i <;> simp [faultOf, ho]

/-- An instruction that has a fault takes the first one. -/
theorem exec_of_faultOf_eq_some {c : FaultCode} (hsp : i = .ret → s.sp.toNat ≠ 1) (hf : faultOf s i = some c) :
    exec i s = .next (s.raise c (encode i)) := by
  rcases faultOf_eq_some.mp hf with ho | ⟨ho, hn, rfl⟩
  · exact exec_eq_raise hsp ho
  · rw [exec_eq_finish hsp ho, State.finish_fault _ hn]

/-- An instruction that has no fault commits (`40_step.md` R98). -/
theorem exec_of_faultOf_eq_none (hsp : i = .ret → s.sp.toNat ≠ 1) (hf : faultOf s i = none) :
    ∃ t, exec i s = .next t ∧ Committed s t (nextPc s i) (stagedDt s i) (stagedSt s i) (drawsDisplay i) := by
  obtain ⟨ho, hn⟩ := faultOf_eq_none.mp hf
  exact ⟨_, exec_eq_finish hsp ho, finish_writesOf_committed i hn⟩

/-- But for 00EE at SP = 1 (log 9), every instruction answers with a result. -/
theorem exec_answers (hsp : i = .ret → s.sp.toNat ≠ 1) : ∃ t r, exec i s = .next t ∧ t.result = some r := by
  cases hf : faultOf s i with
  | some c => exact ⟨_, _, exec_of_faultOf_eq_some hsp hf, rfl⟩
  | none =>
    obtain ⟨t, he, hc⟩ := exec_of_faultOf_eq_none hsp hf
    exact ⟨t, .ok, he, hc.ports.result⟩

/-! ### The key queries (`40_step.md` R101) -/

theorem mem_allKeys : ∀ k : Key, k ∈ allKeys := by decide

/-- A legal `KEY_ORDER` holds every key (`00_scope.md` R10). -/
theorem mem_keyOrder_of_wf {p : Params} (h : p.wf = true) (k : Key) : k ∈ p.keyOrder := by
  simp only [Params.wf, Params.keyOrderOk, Bool.and_eq_true, List.all_eq_true, List.contains_iff_mem] at h
  obtain ⟨⟨-, -, hall⟩, -⟩ := h
  exact hall k (mem_allKeys k)

/-- A sample is 0 exactly when it holds no key. -/
theorem keys_eq_zero_iff {w : BitVec 16} : w = 0 ↔ ∀ k : Key, w.getLsbD k.toNat = false := by
  constructor
  · rintro rfl k
    exact BitVec.getLsbD_zero
  · intro h
    refine BitVec.eq_of_getLsbD_eq fun j hj => ?_
    have hbit := h (BitVec.ofNat 4 j)
    rw [BitVec.toNat_ofNat, Nat.mod_eq_of_lt hj] at hbit
    exact hbit.trans BitVec.getLsbD_zero.symm

theorem State.pressedKey_eq_none_iff (h : s.params.wf = true) : s.pressedKey = none ↔ s.keys = 0 := by
  rw [keys_eq_zero_iff]
  simp [State.pressedKey, State.isPressed, mem_keyOrder_of_wf h]

theorem State.pressedKey_eq_some_iff {k : Key} :
    s.pressedKey = some k ↔
      ∃ before after, s.params.keyOrder = before ++ k :: after ∧ s.keys.getLsbD k.toNat = true ∧
        ∀ j ∈ before, s.keys.getLsbD j.toNat = false := by
  rw [State.pressedKey, List.find?_eq_some_iff_append]
  simp only [State.isPressed, Bool.not_eq_true', ← exists_and_left]
  exact exists₂_congr fun _ _ => and_left_comm

end

/-! ### The statements -/

/-- Settles O8: the state stepped is the machine with the sample laid out first, and each end of a step counts once. -/
theorem stepRequestBookkeeping : Obligations.StepRequestBookkeeping := by
  refine ⟨fun s keys rand => ⟨?_, fun t h => ?_⟩, fun s t => step_bookkeeping⟩
  · exact ⟨s.withSamples (⟨keys, rand⟩ :: s.inputs) s.requests, rfl, State.sameMachine_withSamples, rfl, rfl, rfl, rfl⟩
  · obtain ⟨hreq, hin, -⟩ := step_bookkeeping h
    exact ⟨hin, hreq⟩

/-- Settles O10: an instruction takes its first fault, or it ends its step with its writes. -/
theorem execCompletesOrFaults : Obligations.ExecCompletesOrFaults :=
  fun _ _ hsp => ⟨fun _ => exec_of_faultOf_eq_some hsp, exec_of_faultOf_eq_none hsp⟩

/-- Settles O41: the first held key is found by the search along `KEY_ORDER`, which misses no key. -/
theorem pressedKeyIsFirstHeld : Obligations.PressedKeyIsFirstHeld := by
  refine ⟨fun s h => ⟨fun _ => rfl, State.pressedKey_eq_none_iff h, fun _ => State.pressedKey_eq_some_iff,
    fun t hstep => ?_⟩, rfl⟩
  rw [step_params hstep]

/-- Settles O4: the two bytes at PC are the word that is fetched and decoded. -/
theorem stepRunsDecodedInstruction : Obligations.StepRunsDecodedInstruction := by
  rintro s i hh ⟨hpc, hd⟩
  exact step_of_decodeWord_eq_some hh (State.fetch_eq_some hpc) (decodeWord_of_decode hd)

/-- Settles O5: each clause is one equation of `step`. -/
theorem fetchAndDecode : Obligations.FetchAndDecode := by
  intro s hh
  refine ⟨fun hpc => ?_, fun hpc hd => ?_, fun i hpc hd => ?_⟩
  · exact step_of_fetch_eq_none hh (State.fetch_eq_none hpc)
  · exact step_of_decodeWord_eq_none hh (State.fetch_eq_some hpc) hd
  · exact step_of_decodeWord_eq_some hh (State.fetch_eq_some hpc) hd

/-- Settles O6: the answer of a halted machine sets the ports and the model's own fields alone. -/
theorem haltedRequestChangesNothing : Obligations.HaltedRequestChangesNothing :=
  fun _ hh => ⟨_, step_of_halted hh, State.sameMachine_answer _ _, rfl, rfl⟩

/-- Settles O56: a step request is answered as halted, it faults before execution, or its instruction answers, since the
invariant excludes SP = 1. -/
theorem stepAlwaysAnswers : Obligations.StepAlwaysAnswers := by
  intro s h
  cases hh : s.halted with
  | true => exact ⟨_, _, step_of_halted hh, rfl⟩
  | false =>
    cases hf : s.fetch with
    | none => exact ⟨_, _, step_of_fetch_eq_none hh hf, rfl⟩
    | some op =>
      cases hd : decodeWord op with
      | none => exact ⟨_, _, step_of_decodeWord_eq_none hh hf hd, rfl⟩
      | some i => rw [step_of_decodeWord_eq_some hh hf hd]; exact exec_answers fun _ => h.sp_ne_one

end Sys2Proof.Machine
end

section
/-! PROOFS of the statements on control transfer (`41_control_flow.md`): the jumps, the call and the return, and that a
return takes the frame its call pushed, since no step writes a frame below SP. -/

namespace Sys2Proof.Machine

section

variable {s t u w : State} {i : Instr} {op : Opcode} {nnn : Addr} {n next k : Nat} {draw : Bool}

/-! ### Jumps -/

/-- An instruction that is a jump to `nnn` moves PC alone, or faults below 0x200 (`41_control_flow.md` R114). -/
theorem State.jump_faults_or_movesPc (h : exec i s = .next (s.jump (encode i) nnn)) :
    (nnn.toNat < 0x200 → Faults i s .reservedTarget) ∧
    (0x200 ≤ nnn.toNat → ∃ t, exec i s = .next t ∧ MovesPc s t nnn.toNat) := by
  rcases State.jump_cases (s := s) (op := encode i) nnn with ⟨hlow, e⟩ | ⟨htarget, e⟩
  · rw [e] at h
    exact ⟨fun _ => h, fun htarget => absurd hlow (Nat.not_lt.mpr htarget)⟩
  · rw [e] at h
    exact ⟨fun hlow => absurd hlow (Nat.not_lt.mpr htarget), fun _ => ⟨_, h, State.finish_movesPc (addr_fits nnn)⟩⟩

/-! ### What a completed call and a completed return do -/

theorem ownFault_ret_eq_none : ownFault s .ret = none ↔ s.sp.toNat ≠ 0 := by
  simp [ownFault]

/-- The high byte of a word is its value divided by 256 (`20_memory.md` R53). -/
theorem highByte_toNat (w : BitVec 16) : (w.extractLsb' 8 8).toNat = w.toNat / 256 := by
  rw [BitVec.extractLsb'_toNat, Nat.shiftRight_eq_div_pow]
  omega

/-- The low byte of a word is its value modulo 256 (`20_memory.md` R53). -/
theorem lowByte_toNat (w : BitVec 16) : (w.extractLsb' 0 8).toNat = w.toNat % 256 := by
  rw [BitVec.extractLsb'_toNat, Nat.shiftRight_zero]

/-- A result of `Ok` is that of an instruction that had no fault and committed its writes. -/
theorem exec_ok (h : exec i s = .next t) (hok : t.result = some .ok) :
    nextPc s i ≤ 0xFFF ∧ ownFault s i = none ∧
      t = s.finish (writesOf s i) (encode i) (nextPc s i) (drawsDisplay i) := by
  rcases exec_next_cases h with ⟨c, rfl⟩ | hcommit
  · simp at hok
  · exact hcommit

/-- The advanced PC fits the word that is pushed. -/
theorem State.seq_word_toNat : (BitVec.ofNat 16 s.seq).toNat = s.pc.toNat + 2 := by
  have := s.pc.isLt
  rw [BitVec.toNat_ofNat, State.seq]
  omega

theorem State.finish_frame (hn : next ≤ 0xFFF) (k : Nat) : (s.finish w op next draw).frame k = w.frame k := by
  rw [State.frame, State.finish_byte hn, State.finish_byte hn]; rfl

/-- A completed 2nnn with SP at the frame `k` leaves the advanced PC in that frame and SP past it
(`41_control_flow.md` R111, R115). -/
theorem exec_call_frame (h : exec (.call nnn) s = .next t) (hok : t.result = some .ok) (hk : s.sp.toNat = 2 * k) :
    s.pc.toNat + 2 ≤ 0xFFF ∧ t.sp.toNat = 2 * k + 2 ∧ t.frame k = s.pc.toNat + 2 := by
  obtain ⟨hn, ho, rfl⟩ := exec_ok h hok
  obtain ⟨hs, -, hpc⟩ := ownFault_call_eq_none.mp ho
  refine ⟨hpc, ?_, ?_⟩
  · rw [State.finish_sp hn, writesOf, State.push_sp_toNat _ hs, hk]
  · rw [State.finish_frame hn, writesOf, State.push_frame _ hk, State.seq_word_toNat]

/-- 00EE with a frame whose address fits pops it: PC and SP move, and nothing else is written
(`41_control_flow.md` R113). -/
theorem exec_ret_commits (hs : 2 ≤ s.sp.toNat) (hn : nextPc s .ret ≤ 0xFFF) :
    ∃ t, exec .ret s = .next t ∧ t.sp.toNat = s.sp.toNat - 2 ∧ SameRegs s t ∧ SameMemory s t ∧ t.i = s.i ∧
      t.disp = s.disp ∧ Committed s t (nextPc s .ret) s.dt s.st false := by
  have ho : ownFault s .ret = none := ownFault_ret_eq_none.mpr (by omega)
  refine ⟨_, exec_eq_finish (fun _ => by omega) ho, ?_, fun z => State.finish_reg hn z, fun a => State.finish_byte hn a,
    State.finish_i hn, State.finish_disp hn, finish_writesOf_committed .ret hn⟩
  rw [State.finish_sp hn]
  exact State.dropFrame_sp_toNat hs

/-- Under the invariant the frame that 00EE pops is a return address from 0x202 to 0xFFF. -/
theorem Inv.nextPc_ret_bounds (h : Inv s) (hs : 2 ≤ s.sp.toNat) :
    0x202 ≤ nextPc s .ret ∧ nextPc s .ret ≤ 0xFFF := by
  have heven := h.spEven
  rw [nextPc_ret (k := s.sp.toNat / 2 - 1) (by omega)]
  exact h.frames _ (by omega)

/-! ### Frames below SP -/

/-- No step writes a frame below SP: a push starts at SP, and every other store is at 0x200 or above. -/
theorem Inv.step_frame (h : Inv s) (hstep : step s = .next t) (hk : 2 * k + 2 ≤ s.sp.toNat) :
    t.frame k = s.frame k := by
  rcases step_next_cases hstep with ⟨-, rfl⟩ | ⟨-, -, rfl⟩ | ⟨-, -, -, rfl⟩ | ⟨-, -, i, -, he⟩
  · rfl
  · rfl
  · rfl
  · rcases exec_next_cases he with ⟨c, rfl⟩ | ⟨hn, ho, rfl⟩
    · rfl
    · rw [State.finish_frame hn, h.writesOf_frame ho hk]

/-- While SP stays at `n` or above, the frames below `n` stay as they are, and so does the invariant. -/
theorem RunsAbove.inv_and_frame (hrun : RunsAbove n s u) (h : Inv s) (hs : n ≤ s.sp.toNat) (hk : 2 * k + 2 ≤ n) :
    Inv u ∧ n ≤ u.sp.toNat ∧ u.frame k = s.frame k := by
  induction hrun with
  | none => exact ⟨h, hs, rfl⟩
  | one _ hstep hsp ih =>
    obtain ⟨hinv, hn, hframe⟩ := ih
    exact ⟨stepKeepsInvariant _ _ hinv hstep, hsp, (hinv.step_frame hstep (hk.trans hn)).trans hframe⟩

end

/-! ### The statements -/

/-- Settles O17: 1nnn is a jump. -/
theorem jumpToTarget : Obligations.JumpToTarget :=
  fun _ nnn => ⟨decodeWord_encode (.jp nnn), State.jump_faults_or_movesPc rfl⟩

/-- Settles O18: Bnnn is the same jump, which reads no register. -/
theorem jumpWithoutV0 : Obligations.JumpWithoutV0 :=
  fun _ nnn => ⟨decodeWord_encode (.jpb nnn), State.jump_faults_or_movesPc rfl⟩

/-- Settles O15: an empty stack is 00EE's own fault, a frame above 0xFFF faults as a next PC, any other is popped; and
the invariant bounds the frames. -/
theorem returnFromSubroutine : Obligations.ReturnFromSubroutine := by
  refine ⟨decodeWord_encode .ret, fun s => ⟨fun hs => ?_, fun hs hn => ?_, exec_ret_commits, Inv.nextPc_ret_bounds⟩⟩
  · exact exec_eq_raise (fun _ => by omega) (if_pos hs)
  · exact exec_of_faultOf_eq_some (fun _ => by omega)
      (faultOf_eq_some.mpr (.inr ⟨ownFault_ret_eq_none.mpr (by omega), hn, rfl⟩))

/-- Settles O19: the three checks in their order, then the push and the jump. -/
theorem callSubroutine : Obligations.CallSubroutine := by
  refine fun s nnn => ⟨decodeWord_encode (.call nnn), fun hs => ?_, fun hs ht => ?_, fun hs ht hpc => ?_,
    fun hs ht hpc => ?_⟩
  · exact exec_eq_raise nofun (if_pos hs)
  · exact exec_eq_raise nofun (by rw [ownFault, if_neg (by omega), if_pos ht])
  · exact exec_eq_raise nofun (by rw [ownFault, if_neg (by omega), if_neg (by omega), if_pos hpc])
  · have ho : ownFault s (.call nnn) = none := ownFault_call_eq_none.mpr ⟨hs, ht, hpc⟩
    have hn : nextPc s (.call nnn) ≤ 0xFFF := addr_fits nnn
    refine ⟨_, exec_eq_finish nofun ho, ?hi, ?lo, fun a hhi hlo => ?others, ?sp, fun z => State.finish_reg hn z,
      State.finish_i hn, State.finish_disp hn, finish_writesOf_committed (.call nnn) hn⟩
    case hi =>
      rw [State.finish_byte hn, writesOf, State.push_byte, if_neg (by omega), if_pos rfl, highByte_toNat,
        State.seq_word_toNat]
    case lo =>
      rw [State.finish_byte hn, writesOf, State.push_byte, if_pos rfl, lowByte_toNat, State.seq_word_toNat]
    case others => rw [State.finish_byte hn, writesOf, State.push_byte, if_neg hlo, if_neg hhi]
    case sp => rw [State.finish_sp hn, writesOf, State.push_sp_toNat _ hs]

/-- Settles O20: the call leaves its return address in the frame at its SP, what runs between leaves that frame, and the
return pops it. -/
theorem callThenReturn : Obligations.CallThenReturn := by
  intro s t u v nnn h hh hcall hstep hok hrun hsp huh hret hstep'
  have hk : s.sp.toNat = 2 * (s.sp.toNat / 2) := by have := h.spEven; omega
  have hexec := (stepRunsDecodedInstruction s _ hh hcall).symm.trans hstep
  obtain ⟨hpc, htsp, htframe⟩ := exec_call_frame hexec hok hk
  obtain ⟨-, -, huframe⟩ := hrun.inv_and_frame (stepKeepsInvariant s t h hstep) le_rfl htsp.ge
  have husp : u.sp.toNat = 2 * (s.sp.toNat / 2) + 2 := by rw [hsp, htsp]
  have hnext : nextPc u .ret = s.pc.toNat + 2 := by rw [nextPc_ret husp, huframe, htframe]
  obtain ⟨v', hexec', hvsp, -, -, -, -, hv⟩ := exec_ret_commits (s := u) (by omega) (by omega)
  cases ((stepRunsDecodedInstruction u _ huh hret).symm.trans hstep').symm.trans hexec'
  exact ⟨hv.ports.result, hv.pc.trans hnext, BitVec.eq_of_toNat_eq (by omega)⟩

end Sys2Proof.Machine
end

section
/-! PROOFS of the statements on the conditional skips (`42_skips.md`): a skip is settled by its condition, which is an
equality of bytes or a bit of the key sample. -/

namespace Sys2Proof.Machine

section

variable {s : State} {i : Instr}

/-- A skip on a Boolean test is a skip on the proposition that the test decides. -/
theorem State.skip_skipsOn_decide {c : Bool} {p : Prop} [Decidable p] (hc : c = true ↔ p)
    (h : exec i s = .next (s.skip (encode i) c)) : SkipsOn i s (decide p) := by
  have hp : c = decide p := Bool.eq_iff_iff.mpr (hc.trans decide_eq_true_iff.symm)
  exact hp ▸ State.skip_skipsOn h

/-- Everything a skip on a key can do: it faults when `b` numbers no key, whatever keys are held, and otherwise it skips
on the state of that key in the sample (`42_skips.md` R135, R136). -/
theorem State.skipOnKey_faults_or_skipsOn {b : Byte} {held : Bool}
    (h : exec i s = .next (s.skipOnKey (encode i) b held)) :
    (0xF < b.toNat → Faults i s .keyRange) ∧
    (b.toNat ≤ 0xF → SkipsOn i s (s.keys.getLsbD b.toNat == held)) := by
  refine ⟨fun hb => ?_, fun hb => State.skip_skipsOn ?_⟩
  · rwa [State.skipOnKey, if_pos hb] at h
  · rwa [State.skipOnKey, if_neg (Nat.not_lt.mpr hb)] at h

end

/-! ### The statements -/

/-- Settles O21: 3xkk and 4xkk skip on the equality of V[x] and the immediate and on its negation. -/
theorem skipOnImmediate : Obligations.SkipOnImmediate :=
  fun _ x kk => ⟨decodeWord_encode (.seImm x kk), decodeWord_encode (.sneImm x kk),
    State.skip_skipsOn_decide beq_iff_eq rfl, State.skip_skipsOn_decide bne_iff_ne rfl⟩

/-- Settles O22: 5xy0 and 9xy0 skip on the equality of two registers and on its negation. -/
theorem skipOnRegisters : Obligations.SkipOnRegisters :=
  fun _ x y => ⟨decodeWord_encode (.seReg x y), decodeWord_encode (.sneReg x y),
    State.skip_skipsOn_decide beq_iff_eq rfl, State.skip_skipsOn_decide bne_iff_ne rfl⟩

/-- Settles O23: Ex9E and ExA1 are skips on a key, held and not held. -/
theorem skipOnKey : Obligations.SkipOnKey := by
  intro s x
  obtain ⟨hfault, hskip⟩ := State.skipOnKey_faults_or_skipsOn (s := s) (i := .skp x) rfl
  obtain ⟨hfault', hskip'⟩ := State.skipOnKey_faults_or_skipsOn (s := s) (i := .sknp x) rfl
  simp only [beq_true] at hskip
  simp only [beq_false] at hskip'
  exact ⟨decodeWord_encode (.skp x), decodeWord_encode (.sknp x), fun hx => ⟨hfault hx, hfault' hx⟩,
    fun hx => ⟨hskip hx, hskip' hx⟩⟩

end Sys2Proof.Machine
end

section
/-! PROOFS of the statements on register loads and arithmetic (`43_alu.md`): every instruction is a register write, with
or without a flag, that goes on in sequence; what is left is the value of its result and of its flag. -/

namespace Sys2Proof.Machine

section

variable {s : State} {x y : RegIdx} {b : Byte}

/-! ### The results -/

/-- The difference modulo 256, with the 256 on the side of the minuend (`43_alu.md` R148, R150). -/
theorem sub_toNat_mod (a b : Byte) : (a - b).toNat = (a.toNat + 256 - b.toNat) % 256 := by
  have hb := b.isLt
  rw [BitVec.toNat_sub]
  omega

/-- A shift to the right by one halves (`43_alu.md` R149). -/
theorem shiftRight_one_toNat (b : Byte) : (b >>> 1).toNat = b.toNat / 2 := by
  rw [BitVec.toNat_ushiftRight, Nat.shiftRight_eq_div_pow, pow_one]

/-- A shift to the left by one doubles modulo 256 (`43_alu.md` R151). -/
theorem shiftLeft_one_toNat (b : Byte) : (b <<< 1).toNat = b.toNat * 2 % 256 := by
  rw [BitVec.toNat_shiftLeft, Nat.shiftLeft_eq, pow_one]

/-- The register that `SHIFT_SOURCE` names is the one that is shifted (`43_alu.md` R149). -/
theorem State.shiftOperand_eq (hx : s.params.shiftSource = .x → b = s.reg x)
    (hy : s.params.shiftSource = .y → b = s.reg y) : s.shiftOperand x y = b := by
  unfold State.shiftOperand
  split
  case h_1 hsrc => exact (hx hsrc).symm
  case h_2 hsrc => exact (hy hsrc).symm

/-! ### The flags -/

theorem carry_iff {a b : Byte} : carry a b = true ↔ 0xFF < a.toNat + b.toNat := decide_eq_true_iff

theorem notBorrow_iff {a b : Byte} : notBorrow a b = true ↔ b.toNat ≤ a.toNat := decide_eq_true_iff

theorem lowBit_iff : lowBit b = true ↔ b.toNat % 2 = 1 := by
  rw [lowBit, BitVec.getLsbD, Nat.testBit_zero, decide_eq_true_iff]

theorem highBit_iff : highBit b = true ↔ 128 ≤ b.toNat := by
  rw [highBit, show b.getLsbD 7 = b.msb from (BitVec.msb_eq_getLsbD_last b).symm, BitVec.msb_eq_decide,
    decide_eq_true_iff]

end

/-! ### The statements -/

/-- Settles O24: 6xkk is a register write of its immediate. -/
theorem loadImmediate : Obligations.LoadImmediate :=
  fun _ x kk => ⟨decodeWord_encode (.ldImm x kk), fun hn => ⟨_, rfl, State.writeReg_writesReg x kk hn⟩,
    State.finish_seq_fault rfl⟩

/-- Settles O25: 7xkk is a register write of a sum of bytes, which is the sum modulo 256. -/
theorem addImmediate : Obligations.AddImmediate := by
  refine fun s x kk => ⟨decodeWord_encode (.addImm x kk), fun hn => ⟨_, rfl, ?_⟩, State.finish_seq_fault rfl⟩
  rw [← BitVec.add_def]
  exact State.writeReg_writesReg x _ hn

/-- Settles O26: 8xy0 to 8xy3 are register writes. -/
theorem copyAndLogic : Obligations.CopyAndLogic := by
  refine fun s x y => ⟨decodeWord_encode (.ldReg x y), decodeWord_encode (.orReg x y), decodeWord_encode (.andReg x y),
    decodeWord_encode (.xorReg x y), fun hn => ⟨?copy, ?or, ?and, ?xor⟩, fun hn => ⟨?_, ?_, ?_, ?_⟩⟩
  case copy | or | and | xor => exact ⟨_, rfl, State.writeReg_writesReg x _ hn⟩
  all_goals exact State.finish_seq_fault rfl hn

/-- Settles O27: 8xy4 writes the sum of bytes, then the carry. -/
theorem addWithCarry : Obligations.AddWithCarry :=
  fun _ x y => ⟨decodeWord_encode (.addReg x y),
    fun hn => ⟨_, rfl, State.writeRegFlag_writesRegFlag x hn (BitVec.toNat_add _ _) carry_iff⟩,
    State.finish_seq_fault rfl⟩

/-- Settles O28: 8xy5 and 8xy7 write a difference of bytes, then its not-borrow; they differ in the minuend. -/
theorem subtractWithNotBorrow : Obligations.SubtractWithNotBorrow :=
  fun _ x y => ⟨decodeWord_encode (.subReg x y), decodeWord_encode (.subnReg x y),
    fun hn =>
      ⟨⟨_, rfl, State.writeRegFlag_writesRegFlag x hn (sub_toNat_mod _ _) notBorrow_iff⟩,
       ⟨_, rfl, State.writeRegFlag_writesRegFlag x hn (sub_toNat_mod _ _) notBorrow_iff⟩⟩,
    fun hn => ⟨State.finish_seq_fault rfl hn, State.finish_seq_fault rfl hn⟩⟩

/-- Settles O30: 8xy6 and 8xyE write the shifted operand, then the bit that the shift drops. -/
theorem shiftByOne : Obligations.ShiftByOne := by
  intro s x y b hx hy
  obtain rfl := State.shiftOperand_eq hx hy
  exact ⟨decodeWord_encode (.shrReg x y), decodeWord_encode (.shlReg x y),
    fun hn =>
      ⟨⟨_, rfl, State.writeRegFlag_writesRegFlag x hn (shiftRight_one_toNat _) lowBit_iff⟩,
       ⟨_, rfl, State.writeRegFlag_writesRegFlag x hn (shiftLeft_one_toNat _) highBit_iff⟩⟩,
    fun hn => ⟨State.finish_seq_fault rfl hn, State.finish_seq_fault rfl hn⟩⟩

/-- Settles O31: Cxkk is a register write of the masked input. -/
theorem randomAndMask : Obligations.RandomAndMask :=
  fun s x kk => ⟨decodeWord_encode (.rnd x kk), fun hn => ⟨_, rfl, State.writeReg_writesReg x (s.rand &&& kk) hn⟩,
    State.finish_seq_fault rfl⟩

end Sys2Proof.Machine
end

section
/-! PROOFS of the statements on the index register and memory transfers (`44_index_memory.md`): Annn and Fx29 are index
writes; the others have faults of their own, and without them they end their step with the writes that `writesOf`
names. -/

namespace Sys2Proof.Machine

section

variable {s : State} {i : Instr} {x : RegIdx}

/-! ### The addresses -/

/-- `nnn` is widened into I as it is (`44_index_memory.md` R171). -/
theorem zeroExtend_addr_toNat (nnn : Addr) : (nnn.zeroExtend 16).toNat = nnn.toNat :=
  BitVec.toNat_setWidth_of_le (by decide)

/-- The glyph address of every byte fits I (`44_index_memory.md` R173). -/
theorem glyphAddr_toNat (b : Byte) : (glyphAddr b).toNat = 0x020 + 5 * b.toNat := by
  have hb := b.isLt
  rw [glyphAddr, BitVec.toNat_ofNat, fontBase]
  omega

/-- An address past a block inside memory fits I (`44_index_memory.md` R175, R176). -/
theorem pastBlock_toNat {a k : Nat} (h : a + k ≤ 0xFFF) : (BitVec.ofNat 16 (a + k + 1)).toNat = a + k + 1 := by
  rw [BitVec.toNat_ofNat]
  omega

/-- After reset the font's bytes stand from 0x020 on (`10_state.md` R37). -/
theorem resetByte_font (p : Params) {j : Nat} (h : j < 80) : resetByte p (0x020 + j) = p.font[j]?.getD 0 := by
  rw [resetByte, if_pos (by rw [fontBase, fontEnd]; omega), fontBase, Nat.add_sub_cancel_left]

/-- Under the invariant the font's bytes stand where reset left them (`20_memory.md` R52). -/
theorem Inv.byte_font (h : Inv s) {j : Nat} (hj : j < 80) : s.byte (0x020 + j) = s.params.font[j]?.getD 0 := by
  rw [h.lowBytes _ (by omega) (by omega), resetByte_font _ hj]

/-! ### The decimal digits (`44_index_memory.md` R174) -/

theorem hundreds_toNat (b : Byte) : (hundreds b).toNat = b.toNat / 100 := by
  have hb := b.isLt
  rw [hundreds, BitVec.toNat_ofNat]
  omega

theorem tens_toNat (b : Byte) : (tens b).toNat = b.toNat / 10 % 10 := by
  rw [tens, BitVec.toNat_ofNat]
  omega

theorem ones_toNat (b : Byte) : (ones b).toNat = b.toNat % 10 := by
  rw [ones, BitVec.toNat_ofNat]
  omega

/-! ### Faults (`60_exceptions.md` R223) -/

theorem ownFault_loadRegs_eq_none : ownFault s (.loadRegs x) = none ↔ s.i.toNat + x.toNat ≤ 0xFFF := by
  simp [ownFault]

theorem ownFault_addI_eq_none : ownFault s (.addI x) = none ↔ s.i.toNat + (s.reg x).toNat ≤ 0xFFFF := by
  simp [ownFault]

/-- Without a fault of its own, an instruction whose next PC does not fit takes PC_RANGE (`40_step.md` R97). -/
theorem faults_pcRange (hsp : i = .ret → s.sp.toNat ≠ 1) (ho : ownFault s i = none) (hn : 0xFFF < nextPc s i) :
    Faults i s .pcRange :=
  exec_of_faultOf_eq_some hsp (faultOf_eq_some.mpr (.inr ⟨ho, hn, rfl⟩))

end

/-! ### The statements -/

/-- Settles O34: Fx29 writes the glyph address to I, and the invariant keeps the font there. -/
theorem pointAtGlyph : Obligations.PointAtGlyph := by
  refine fun s x => ⟨decodeWord_encode (.ldFont x), fun hn => ?_, State.finish_seq_fault rfl⟩
  have hw := State.finish_writesIndex (op := encode (.ldFont x)) _ hn (glyphAddr_toNat (s.reg x))
  refine ⟨_, rfl, hw, fun hinv hx k => ?_⟩
  rw [hw.memory, hw.index, Nat.add_assoc, hinv.byte_font (by omega)]

/-- Settles O35: the two checks in their order, then the three digits. -/
theorem storeDigits : Obligations.StoreDigits := by
  refine fun s x => ⟨decodeWord_encode (.bcd x), fun hlow => ?_, fun hlow hmax => ?_, fun hlow hmax hn => ?_,
    fun hlow hmax hn => ?_⟩
  · exact exec_eq_raise nofun (if_pos hlow)
  · exact exec_eq_raise nofun (by rw [ownFault, if_neg (by omega), if_pos hmax])
  · exact faults_pcRange nofun (ownFault_bcd_eq_none.mpr ⟨hlow, hmax⟩) hn
  · have ho : ownFault s (.bcd x) = none := ownFault_bcd_eq_none.mpr ⟨hlow, hmax⟩
    have hn : nextPc s (.bcd x) ≤ 0xFFF := hn
    refine ⟨_, exec_eq_finish nofun ho, ?hundreds, ?tens, ?ones, fun a ha => ?others, fun z => State.finish_reg hn z,
      State.finish_i hn, State.finish_sp hn, State.finish_disp hn, finish_writesOf_committed (.bcd x) hn⟩
    case hundreds =>
      rw [State.finish_byte hn, writesOf, State.storeDigits_byte, if_neg (by omega), if_neg (by omega), if_pos rfl,
        hundreds_toNat]
    case tens =>
      rw [State.finish_byte hn, writesOf, State.storeDigits_byte, if_neg (by omega), if_pos rfl, tens_toNat]
    case ones => rw [State.finish_byte hn, writesOf, State.storeDigits_byte, if_pos rfl, ones_toNat]
    case others =>
      have hframe : mayStore s a (.bcd x) = false := decide_eq_false (by omega)
      rw [State.finish_byte hn, writesOf_byte hframe]

/-- Settles O36: the two checks in their order, then the block store. -/
theorem storeRegisters : Obligations.StoreRegisters := by
  refine fun s x => ⟨decodeWord_encode (.storeRegs x), fun hlow => ?_, fun hlow hmax => ?_, fun hlow hmax hn => ?_,
    fun hlow hmax hn => ?_⟩
  · exact exec_eq_raise nofun (if_pos hlow)
  · exact exec_eq_raise nofun (by rw [ownFault, if_neg (by omega), if_pos hmax])
  · exact faults_pcRange nofun (ownFault_storeRegs_eq_none.mpr ⟨hlow, hmax⟩) hn
  · have ho : ownFault s (.storeRegs x) = none := ownFault_storeRegs_eq_none.mpr ⟨hlow, hmax⟩
    have he := exec_eq_finish (i := .storeRegs x) nofun ho
    have hn : nextPc s (.storeRegs x) ≤ 0xFFF := hn
    have hc := finish_writesOf_committed (.storeRegs x) hn
    obtain ⟨-, hstored⟩ := exec_storeRegs_byte he hc.ports.result
    refine ⟨_, he, hstored, fun a ha => ?others, ?index, fun z => ?regs, ?sp, ?disp, hc⟩
    case others =>
      have hframe : mayStore s a (.storeRegs x) = false := decide_eq_false (by omega)
      rw [State.finish_byte hn, writesOf_byte hframe]
    case index => rw [State.finish_i hn]; exact pastBlock_toNat hmax
    case regs => rw [State.finish_reg hn, writesOf_reg rfl]
    case sp => rw [State.finish_sp hn, writesOf_sp rfl]
    case disp => rw [State.finish_disp hn, writesOf_disp rfl]

/-- Settles O37: one check, with no guard below 0x200, then the block load. -/
theorem loadRegisters : Obligations.LoadRegisters := by
  refine fun s x => ⟨decodeWord_encode (.loadRegs x), fun hmax => ?_, fun hmax hn => ?_, fun hmax hn => ?_⟩
  · exact exec_eq_raise nofun (if_pos hmax)
  · exact faults_pcRange nofun (ownFault_loadRegs_eq_none.mpr hmax) hn
  · have ho : ownFault s (.loadRegs x) = none := ownFault_loadRegs_eq_none.mpr hmax
    have hn : nextPc s (.loadRegs x) ≤ 0xFFF := hn
    refine ⟨_, exec_eq_finish nofun ho, fun z hz => ?loaded, fun z hz => ?above, ?index, fun a => ?memory, ?sp, ?disp,
      finish_writesOf_committed (.loadRegs x) hn⟩
    case loaded =>
      have hx := x.isLt
      rw [State.finish_reg hn, writesOf, State.setI_reg, State.loadFrom_reg _ _ _ hx, if_pos (by omega)]
    case above =>
      have hframe : mayWriteReg s z (.loadRegs x) = false := decide_eq_false (by omega)
      rw [State.finish_reg hn, writesOf_reg hframe]
    case index => rw [State.finish_i hn]; exact pastBlock_toNat hmax
    case memory => rw [State.finish_byte hn, writesOf_byte rfl]
    case sp => rw [State.finish_sp hn, writesOf_sp rfl]
    case disp => rw [State.finish_disp hn, writesOf_disp rfl]

/-- Settles O32: Annn is an index write. -/
theorem loadIndex : Obligations.LoadIndex :=
  fun _ nnn => ⟨decodeWord_encode (.ldI nnn),
    fun hn => ⟨_, rfl, State.finish_writesIndex _ hn (zeroExtend_addr_toNat nnn)⟩, State.finish_seq_fault rfl⟩

/-- Settles O33: a sum above 0xFFFF is Fx1E's own fault, any other is written to I, which it fits. -/
theorem addToIndex : Obligations.AddToIndex := by
  refine fun s x => ⟨decodeWord_encode (.addI x), fun hsum => ?_, fun hsum hn => ?_, fun hsum hn => ?_⟩
  · exact exec_eq_raise nofun (if_pos hsum)
  · exact faults_pcRange nofun (ownFault_addI_eq_none.mpr hsum) hn
  · refine ⟨_, exec_eq_finish nofun (ownFault_addI_eq_none.mpr hsum), State.finish_writesIndex _ hn ?_⟩
    rw [BitVec.toNat_ofNat, Nat.mod_eq_of_lt (Nat.lt_succ_of_le hsum)]

end Sys2Proof.Machine
end

section
/-! PROOFS of the statements on timers and keys (`45_timers_keys.md`): Fx07 is a register write of DT, Fx15 and Fx18 are
timer writes, and Fx0A moves no PC or is a register write, as the search along `KEY_ORDER` ends. -/

namespace Sys2Proof.Machine

section

variable {s : State} {i : Instr} {x : RegIdx} {dt st : Byte} {k : Key}

/-! ### A timer write -/

/-- A step in sequence that writes the timers alone: the writeback runs on what it wrote (`45_timers_keys.md` R190). -/
theorem exec_setTimers_commits
    (h : exec i s = .next (s.finish ((s.setDt dt).setSt st) (encode i) s.seq false)) (hn : s.pc.toNat + 2 ≤ 0xFFF) :
    ∃ t, exec i s = .next t ∧ Committed s t (s.pc.toNat + 2) dt st false ∧
      SameRegs s t ∧ t.i = s.i ∧ t.sp = s.sp ∧ SameMemory s t ∧ t.disp = s.disp := by
  have hq : s.seq ≤ 0xFFF := hn
  exact ⟨_, h, State.finish_committed hq rfl rfl ⟨rfl, rfl, rfl, rfl⟩, fun z => State.finish_reg hq z,
    State.finish_i hq, State.finish_sp hq, fun a => State.finish_byte hq a, State.finish_disp hq⟩

/-! ### The key wait (`45_timers_keys.md` R192) -/

/-- The search finds nothing exactly when no key of `KEY_ORDER` is held, legal or not (`40_step.md` R101). -/
theorem State.pressedKey_eq_none_iff_keyOrder :
    s.pressedKey = none ↔ ∀ k ∈ s.params.keyOrder, s.keys.getLsbD k.toNat = false := by
  simp only [State.pressedKey, State.isPressed, List.find?_eq_none, Bool.not_eq_true]

theorem exec_ldKey_of_pressedKey_eq_none (h : s.pressedKey = none) :
    exec (.ldKey x) s = .next (s.finish s (encode (.ldKey x)) s.pc.toNat false) := by
  simp only [exec, execLdKey, h]

theorem exec_ldKey_of_pressedKey_eq_some (h : s.pressedKey = some k) :
    exec (.ldKey x) s = .next (s.writeReg (encode (.ldKey x)) x (k.zeroExtend 8)) := by
  simp only [exec, execLdKey, h, State.writeReg]

end

/-! ### The statements -/

/-- Settles O40: with no key held the step ends with no write at its own PC, which always fits; the first held key of
`KEY_ORDER` is written in sequence. -/
theorem keyWait : Obligations.KeyWait := by
  refine fun s x => ⟨decodeWord_encode (.ldKey x), fun hfree => ?retry, fun before after k horder hbefore hk => ?stored⟩
  case retry =>
    have hnone : s.pressedKey = none := State.pressedKey_eq_none_iff_keyOrder.mpr hfree
    exact ⟨_, exec_ldKey_of_pressedKey_eq_none hnone, State.finish_movesPc (addr_fits s.pc)⟩
  case stored =>
    have hsome : s.pressedKey = some k := State.pressedKey_eq_some_iff.mpr ⟨before, after, horder, hk, hbefore⟩
    have he := exec_ldKey_of_pressedKey_eq_some (x := x) hsome
    exact ⟨fun hn => ⟨_, he, State.writeReg_writesReg x _ hn⟩, State.finish_seq_fault he⟩

/-- Settles O38: Fx07 is a register write of DT as the step found it. -/
theorem readDelayTimer : Obligations.ReadDelayTimer :=
  fun s x => ⟨decodeWord_encode (.ldFromDt x), fun hn => ⟨_, rfl, State.writeReg_writesReg x s.dt hn⟩,
    State.finish_seq_fault rfl⟩

/-- Settles O39: Fx15 and Fx18 write one timer and leave the other. -/
theorem setTimers : Obligations.SetTimers :=
  fun _ x => ⟨decodeWord_encode (.ldToDt x), decodeWord_encode (.ldToSt x),
    fun hn => ⟨exec_setTimers_commits rfl hn, exec_setTimers_commits rfl hn⟩,
    fun hn => ⟨State.finish_seq_fault rfl hn, State.finish_seq_fault rfl hn⟩⟩

end Sys2Proof.Machine
end

section
/-! PROOFS of the statements on the display (`46_display.md`): a completed Dxyn in the terms of single pixels, which it
flips by XOR. Clipping, the restored display and the collision are facts about the pixels that it flips. -/

namespace Sys2Proof.Machine

section

variable {s t u : State} {x y : RegIdx} {n : Nibble} {c r : Nat}

/-! ### Pixels (`10_state.md` R38) -/

/-- A display has no column above 63. -/
theorem State.pixel_of_ge (h : 64 ≤ c) : s.pixel c r = false := BitVec.getLsbD_of_ge _ _ h

/-- Two displays are the same when all their pixels are. -/
theorem State.disp_eq_of_pixel_eq (h : ∀ c r, c < 64 → r < 32 → t.pixel c r = s.pixel c r) : t.disp = s.disp :=
  State.disp_ext fun r hr => BitVec.eq_of_getLsbD_eq fun c hc => h c r hc hr

theorem State.pixel_eq_of_disp_eq (h : t.disp = s.disp) : t.pixel c r = s.pixel c r := by
  rw [State.pixel, State.row, h]; rfl

/-- On a blank display no pixel is on; a row index above 31 names no row. -/
theorem State.pixel_of_blank (h : ∀ r, r < 32 → s.row r = 0) : s.pixel c r = false := by
  have hblank : s.disp = s.clearRows.disp := State.disp_ext fun r hr => by rw [h r hr, State.row_clearRows]
  rw [State.pixel_eq_of_disp_eq hblank, State.pixel, State.row_clearRows]
  exact BitVec.getLsbD_zero

/-- Two rows meet exactly when some column is on in both. -/
theorem row_and_ne_zero_iff {a b : Row} :
    a &&& b ≠ 0 ↔ ∃ c, c < 64 ∧ a.getLsbD c = true ∧ b.getLsbD c = true := by
  simp [BitVec.eq_of_getLsbD_eq_iff]

/-- A sprite byte lights nothing left of its column (`46_display.md` R205). -/
theorem spritePixel_eq_false_of_lt {b : Byte} {col : Nat} (h : c < col) : spritePixel b col c = false := by
  rw [spritePixel, decide_eq_false (by omega), Bool.false_and]

/-! ### What a draw flips (`46_display.md` R202, R204) -/

/-- Dxyn in `s` flips the pixel at column `c` of row `r`: the row is one of the `n` rows from `V[y]` on, and the sprite
byte of that row lights the column. -/
def State.drawFlips (s : State) (x y : RegIdx) (n : Nibble) (c r : Nat) : Bool :=
  decide ((s.reg y).toNat ≤ r ∧ r < (s.reg y).toNat + n.toNat) &&
    spritePixel (s.byte (s.i.toNat + (r - (s.reg y).toNat))) (s.reg x).toNat c

/-- Some pixel within the screen that the sprite of Dxyn lights is on, for `on = true`, or off, for `on = false`, in
`s`. -/
def State.drawMeets (s : State) (x y : RegIdx) (n : Nibble) (on : Bool) : Prop :=
  ∃ r c, r < n.toNat ∧ c < 64 ∧ s.pixel c ((s.reg y).toNat + r) = on ∧
    spritePixel (s.byte (s.i.toNat + r)) (s.reg x).toNat c = true

/-- In the sprite's own row `r` it flips what the sprite byte of that row lights. -/
theorem State.drawFlips_row (h : r < n.toNat) :
    s.drawFlips x y n c ((s.reg y).toNat + r) = spritePixel (s.byte (s.i.toNat + r)) (s.reg x).toNat c := by
  rw [State.drawFlips, decide_eq_true (by omega), Bool.true_and, Nat.add_sub_cancel_left]

/-- Nothing is flipped left of the column `V[x]` (`46_display.md` R205). -/
theorem State.drawFlips_eq_false_of_lt (h : c < (s.reg x).toNat) : s.drawFlips x y n c r = false := by
  rw [State.drawFlips, spritePixel_eq_false_of_lt h, Bool.and_false]

/-- The same bytes at the same place flip the same pixels. -/
theorem State.drawFlips_congr (hi : u.i = s.i) (hx : u.reg x = s.reg x) (hy : u.reg y = s.reg y)
    (hb : ∀ r, r < n.toNat → u.byte (s.i.toNat + r) = s.byte (s.i.toNat + r)) :
    u.drawFlips x y n c r = s.drawFlips x y n c r := by
  rw [State.drawFlips, State.drawFlips, hi, hx, hy]
  by_cases hr : (s.reg y).toNat ≤ r ∧ r < (s.reg y).toNat + n.toNat
  · rw [hb _ (by omega)]
  · rw [decide_eq_false hr, Bool.false_and, Bool.false_and]

/-- With `V[x]` of 64 or more the sprite lights nothing within the screen (`46_display.md` R205). -/
theorem State.not_drawMeets_of_ge {on : Bool} (h : 64 ≤ (s.reg x).toNat) : ¬ s.drawMeets x y n on := by
  rintro ⟨r, c, -, hc, -, hlit⟩
  rw [spritePixel_eq_false_of_lt (hc.trans_le h)] at hlit
  exact Bool.false_ne_true hlit

/-- On a blank display the sprite meets no pixel that is on. -/
theorem State.not_drawMeets_of_blank (h : ∀ r, r < 32 → s.row r = 0) : ¬ s.drawMeets x y n true := by
  rintro ⟨r, c, -, -, hon, -⟩
  rw [State.pixel_of_blank h] at hon
  exact Bool.false_ne_true hon

/-- The model's accumulated flag is set exactly when some pixel that the sprite lights is on (`46_display.md` R203). -/
theorem State.drawCollides_iff_drawMeets :
    s.drawCollides (s.reg x) (s.reg y).toNat n.toNat = true ↔ s.drawMeets x y n true := by
  simp only [State.drawCollides_iff, row_and_ne_zero_iff, State.drawMeets, ← exists_and_left]
  refine exists₂_congr fun r c => and_congr_right fun _ => and_congr_right fun hc => ?_
  rw [lane_getLsbD _ _ hc]; rfl

/-! ### The writes of a draw -/

theorem ownFault_drw_eq_none :
    ownFault s (.drw x y n) = none ↔
      (0 < n.toNat → s.i.toNat + n.toNat - 1 ≤ 0xFFF ∧ (s.reg y).toNat + n.toNat - 1 ≤ 31) := by
  simp only [ownFault]
  split_ifs <;> simp <;> omega

/-- Without a fault of its own Dxyn XORs the sprite into the display (`46_display.md` R202). -/
theorem writesOf_drw_pixel (ho : ownFault s (.drw x y n) = none) (hc : c < 64) :
    (writesOf s (.drw x y n)).pixel c r = (s.pixel c r ^^ s.drawFlips x y n c r) := by
  rw [State.pixel, writesOf, State.setReg_row]
  by_cases hn : n.toNat = 0
  · rw [State.drawFlips, decide_eq_false (by omega), Bool.false_and, Bool.xor_false, hn]; rfl
  · have hrows := ownFault_drw_eq_none.mp ho (by omega)
    rw [State.drawRows_row _ _ _ _ (by omega), State.drawFlips]
    split
    case isTrue hr => rw [decide_eq_true hr, Bool.true_and, BitVec.getLsbD_xor, lane_getLsbD _ _ hc]; rfl
    case isFalse hr => rw [decide_eq_false hr, Bool.false_and, Bool.xor_false]; rfl

theorem writesOf_drw_flag :
    (writesOf s (.drw x y n)).reg flagReg = flagByte (s.drawCollides (s.reg x) (s.reg y).toNat n.toNat) := by
  rw [writesOf, State.reg_setReg_same]

theorem flagByte_eq_one_iff {b : Bool} : flagByte b = 1 ↔ b = true := by cases b <;> decide

theorem flagByte_eq_zero_iff {b : Bool} : flagByte b = 0 ↔ b = false := by cases b <;> decide

/-- Everything a completed Dxyn does to the display and to VF. -/
theorem exec_drw_ok (h : exec (.drw x y n) s = .next t) (hok : t.result = some .ok) :
    (∀ c r, c < 64 → t.pixel c r = (s.pixel c r ^^ s.drawFlips x y n c r)) ∧
    (t.reg flagReg = 1 ↔ s.drawMeets x y n true) ∧ (t.reg flagReg = 0 ↔ ¬ s.drawMeets x y n true) := by
  obtain ⟨hn, ho, rfl⟩ := exec_ok h hok
  refine ⟨fun c r hc => ?_, ?_, ?_⟩
  · rw [← writesOf_drw_pixel ho hc, State.pixel, State.finish_row hn]; rfl
  · rw [State.finish_reg hn, writesOf_drw_flag, flagByte_eq_one_iff, State.drawCollides_iff_drawMeets]
  · rw [State.finish_reg hn, writesOf_drw_flag, flagByte_eq_zero_iff, ← State.drawCollides_iff_drawMeets,
      Bool.not_eq_true]

/-- On the display that a first draw left, the same draw meets a pixel that is on where it met one that was off. -/
theorem State.drawMeets_after_draw (hi : u.i = s.i) (hx : u.reg x = s.reg x) (hy : u.reg y = s.reg y)
    (hb : ∀ r, r < n.toNat → u.byte (s.i.toNat + r) = s.byte (s.i.toNat + r))
    (hp : ∀ c r, c < 64 → u.pixel c r = (s.pixel c r ^^ s.drawFlips x y n c r)) :
    u.drawMeets x y n true ↔ s.drawMeets x y n false := by
  rw [State.drawMeets, State.drawMeets, hi, hx, hy]
  refine exists₂_congr fun r c => and_congr_right fun hr => and_congr_right fun hc => ?_
  rw [hp _ _ hc, State.drawFlips_row hr, hb r hr]
  exact and_congr_left fun hlit => by rw [hlit, Bool.xor_true, Bool.not_eq_true']

/-! ### The draw port (`46_display.md` R200) -/

theorem Answered.drawPort {result : StepResult} {draw : Bool} (h : Answered t result draw) :
    t.drawPort = if draw then some t.disp else none := by
  rw [State.drawPort, h.drawOut]

end

/-! ### The statements -/

/-- Settles O45: the two checks in their order; without them Dxyn ends its step with its writes, pixel by pixel. -/
theorem drawSprite : Obligations.DrawSprite := by
  refine fun s x y n => ⟨decodeWord_encode (.drw x y n), fun hn hmem => ?_, fun hn hmem hrow => ?_, fun hfits hpc => ?_,
    fun hfits hpc => ?_⟩
  · exact exec_eq_raise nofun (if_pos ⟨hn, hmem⟩)
  · exact exec_eq_raise nofun (by rw [ownFault, if_neg (by omega), if_pos ⟨hn, hrow⟩])
  · exact faults_pcRange nofun (ownFault_drw_eq_none.mpr hfits) hpc
  · have he := exec_eq_finish (i := .drw x y n) nofun (ownFault_drw_eq_none.mpr hfits)
    have hpc : nextPc s (.drw x y n) ≤ 0xFFF := hpc
    have hc := finish_writesOf_committed (.drw x y n) hpc
    obtain ⟨hpixel, hone, hzero⟩ := exec_drw_ok he hc.ports.result
    refine ⟨_, he, fun c r hcol _ => hpixel c r hcol, hone.mpr, hzero.mpr, fun z hz => ?regs, ?index, ?sp,
      fun a => ?memory, hc.ports.drawPort, hc⟩
    case regs =>
      have hframe : mayWriteReg s z (.drw x y n) = false := beq_eq_false_iff_ne.mpr hz
      rw [State.finish_reg hpc, writesOf_reg hframe]
    case index => rw [State.finish_i hpc, writesOf_i rfl]
    case sp => rw [State.finish_sp hpc, writesOf_sp rfl]
    case memory => rw [State.finish_byte hpc, writesOf_byte rfl]

/-- Settles O47: what a draw flips lies at its column or right of it. -/
theorem horizontalClipping : Obligations.HorizontalClipping := by
  intro s t x y n h hok
  obtain ⟨hpixel, -, hzero⟩ := exec_drw_ok h hok
  have hleft : ∀ c r, c < 64 → c < (s.reg x).toNat → t.pixel c r = s.pixel c r := fun c r hc hlt => by
    rw [hpixel c r hc, State.drawFlips_eq_false_of_lt hlt, Bool.xor_false]
  refine ⟨fun c r _ hlt => ?_, fun hx => ⟨?_, hzero.mpr (State.not_drawMeets_of_ge hx)⟩⟩
  · rcases Nat.lt_or_ge c 64 with hc | hc
    · exact hleft c r hc hlt
    · rw [State.pixel_of_ge hc, State.pixel_of_ge hc]
  · exact State.disp_eq_of_pixel_eq fun c r hc _ => hleft c r hc (hc.trans_le hx)

/-- Settles O48: a pixel flipped twice is as it was, and a pixel that the first draw flips is on before the second
exactly when it was off before the first. -/
theorem drawTwiceRestores : Obligations.DrawTwiceRestores := by
  intro s t u v x y n h hok hdisp hi hx hy hb h' hok'
  obtain ⟨hpixel, -, hzero⟩ := exec_drw_ok h hok
  obtain ⟨hpixel', hone', -⟩ := exec_drw_ok h' hok'
  have hbetween : ∀ c r, c < 64 → u.pixel c r = (s.pixel c r ^^ s.drawFlips x y n c r) := fun c r hc =>
    (State.pixel_eq_of_disp_eq hdisp).trans (hpixel c r hc)
  refine ⟨State.disp_eq_of_pixel_eq fun c r hc _ => ?_, hone'.trans (State.drawMeets_after_draw hi hx hy hb hbetween),
    fun hblank => hzero.mpr (State.not_drawMeets_of_blank hblank)⟩
  rw [hpixel' c r hc, hbetween c r hc, State.drawFlips_congr hi hx hy hb, Bool.xor_assoc, Bool.xor_self, Bool.xor_false]

/-- Settles O49: a fault presents nothing, and a commit presents the buffer as `drawsDisplay` says. -/
theorem drawOutputPresented : Obligations.DrawOutputPresented := by
  intro i s t h
  rcases exec_next_cases h with ⟨c, rfl⟩ | ⟨hn, -, rfl⟩
  · exact ⟨fun hok => by simp at hok, fun _ => rfl, fun _ => rfl⟩
  · have hports := (finish_writesOf_committed i hn).ports
    refine ⟨fun _ hdraw => ?_, fun hdraw => ?_, fun hfault => absurd hports.result hfault⟩
    · rw [hports.drawPort, if_pos hdraw]
    · rw [hports.drawPort, hdraw]; rfl

/-- Settles O44: 00E0 has no fault of its own, and its only write is the blank display. -/
theorem clearDisplay : Obligations.ClearDisplay := by
  refine ⟨decodeWord_encode .cls, fun s => ⟨fun hn => ?_, State.finish_seq_fault rfl⟩⟩
  have hn : nextPc s .cls ≤ 0xFFF := hn
  have hc := finish_writesOf_committed .cls hn
  refine ⟨_, rfl, fun r _ => ?_, hc.ports.drawPort, fun z => State.finish_reg hn z, State.finish_i hn,
    State.finish_sp hn, fun a => State.finish_byte hn a, hc⟩
  exact (State.finish_row hn r).trans (State.row_clearRows r)

/-- Settles O46: with no row there is nothing to check, nothing to flip and nothing to meet. -/
theorem drawZeroRows : Obligations.DrawZeroRows := by
  intro s x y
  have ho : ownFault s (.drw x y 0) = none := ownFault_drw_eq_none.mpr fun h => absurd h (Nat.lt_irrefl 0)
  refine ⟨fun hn => ?_, faults_pcRange (i := .drw x y 0) nofun ho⟩
  have hn : nextPc s (.drw x y 0) ≤ 0xFFF := hn
  refine ⟨_, exec_eq_finish nofun ho, State.finish_disp hn, ?_,
    (finish_writesOf_committed (.drw x y 0) hn).ports.drawPort⟩
  rw [State.finish_reg hn, writesOf_drw_flag]; rfl

end Sys2Proof.Machine
end

section
/-! PROOFS of the statements on faults, timers and the host's requests (`60_exceptions.md`): the three ways a step request
ends, what a halted machine answers, the run of the timers over committed steps, and that every request of the host keeps
the invariant. -/

namespace Sys2Proof.Machine

section

variable {s t u : State} {i j : Instr} {k : Nat} {image : List Byte}

/-! ### States of the same machine -/

theorem SameFaultRecord.trans (hst : SameFaultRecord s t) (htu : SameFaultRecord t u) : SameFaultRecord s u where
  halted := htu.halted.trans hst.halted
  code := htu.code.trans hst.code
  pc := htu.pc.trans hst.pc
  opcode := htu.opcode.trans hst.opcode

theorem SameMachine.trans (hst : SameMachine s t) (htu : SameMachine t u) : SameMachine s u where
  v := htu.v.trans hst.v
  pc := htu.pc.trans hst.pc
  i := htu.i.trans hst.i
  sp := htu.sp.trans hst.sp
  dt := htu.dt.trans hst.dt
  st := htu.st.trans hst.st
  tdiv := htu.tdiv.trans hst.tdiv
  mem := htu.mem.trans hst.mem
  disp := htu.disp.trans hst.disp
  record := hst.record.trans htu.record
  params := htu.params.trans hst.params

theorem SameMachine.byte (h : SameMachine s t) (a : Nat) : t.byte a = s.byte a := by
  rw [State.byte, h.params, h.mem, State.byte]

/-- The invariant speaks of the machine alone, not of the ports and the model's own fields. -/
theorem Inv.of_sameMachine (hinv : Inv s) (h : SameMachine s t) : Inv t where
  params := by rw [h.params]; exact hinv.params
  mem := by rw [h.params, h.mem]; exact hinv.mem
  spEven := by rw [h.sp]; exact hinv.spEven
  spMax := by rw [h.sp]; exact hinv.spMax
  frames := by
    intro k hk
    rw [h.sp] at hk
    rw [State.frame, h.byte, h.byte]
    exact hinv.frames k hk
  pcLow := by rw [h.pc]; exact hinv.pcLow
  divider := by rw [h.tdiv, h.params]; exact hinv.divider
  lowBytes := by
    intro a hlo hhi
    rw [h.byte, h.params]
    exact hinv.lowBytes a hlo hhi
  record := by rw [h.record.halted, h.record.code]; exact hinv.record
  faultPc := by rw [h.record.halted, h.record.pc, h.pc]; exact hinv.faultPc

/-! ### The host's requests (`60_exceptions.md` R248) -/

/-- A reset keeps the parameters, and `Inv` holds at reset for legal ones (`70_reset_and_hazards.md` R260). -/
theorem Inv.hostReset (h : Inv s) : Inv s.hostReset := by
  obtain ⟨-, hreset⟩ := resetMeetsInvariant
  exact (hreset s.params h.params).of_sameMachine
    (State.sameMachine_withSamples (samples := s.inputs) (m := s.requests))

/-- A load that answers had room for its image and wrote nothing else of the machine (`70_reset_and_hazards.md` R263). -/
theorem State.hostLoad_next (h : s.hostLoad image = .next t) :
    image.length ≤ maxImage ∧ SameMachine (s.writeImage programBase image) t := by
  unfold State.hostLoad at h
  split_ifs at h with hopen hlength
  cases h
  exact ⟨hlength, ⟨rfl, rfl, rfl, rfl, rfl, rfl, rfl, rfl, rfl, ⟨rfl, rfl, rfl, rfl⟩, rfl⟩⟩

/-- An image leaves the reserved low memory as it was: it starts at 0x200 (`20_memory.md` R51). -/
theorem State.writeImage_low_byte {a : Nat} (ha : a < 0x200) : (s.writeImage programBase image).byte a = s.byte a := by
  rw [State.writeImage_byte, if_neg fun ⟨hlo, _⟩ => absurd hlo (Nat.not_le.mpr ha)]

/-- An image inside memory keeps the invariant: stack, font and reserved region lie below it. -/
theorem Inv.writeImage (h : Inv s) (hlength : image.length ≤ maxImage) : Inv (s.writeImage programBase image) := by
  have hmem : Memory.wf (resetByte s.params) (s.writeImage programBase image).mem :=
    State.writeImage_wf _ _ h.mem (Nat.add_le_add_left hlength programBase)
  have hbyte : ∀ a, a < 0x200 → (s.writeImage programBase image).byte a = s.byte a := fun _ => State.writeImage_low_byte
  rw [State.writeImage_eq] at hmem hbyte ⊢
  constructor
  case params => exact h.params
  case mem => exact hmem
  case spEven => exact h.spEven
  case spMax => exact h.spMax
  case frames =>
    intro k hk
    have hmax : s.sp.toNat ≤ 32 := h.spMax
    have hk : 2 * k + 2 ≤ s.sp.toNat := hk
    rw [State.frame, hbyte _ (by omega), hbyte _ (by omega)]
    exact h.frames k hk
  case pcLow => exact h.pcLow
  case divider => exact h.divider
  case lowBytes => exact fun a hlo hhi => (hbyte a hhi).trans (h.lowBytes a hlo hhi)
  case record => exact h.record
  case faultPc => exact h.faultPc

/-- A served step is a step of the machine with its sample laid out first (`40_step.md` R100). -/
theorem serve_step (s : State) (keys : BitVec 16) (rand : Byte) :
    serve (.step keys rand) s = step (s.withSamples (⟨keys, rand⟩ :: s.inputs) s.requests) := rfl

/-! ### A halted machine (`60_exceptions.md` R224) -/

theorem core_run_succ (h : step s = .next u) (k : Nat) : Host.Core.run core (k + 1) s = Host.Core.run core k u := by
  have h : core.step s = .next u := h
  simp only [Host.Core.run, h]

/-- Every request while halted gets the same answer, since the machine it leaves is the same. -/
theorem run_of_halted (hh : s.halted = true) (k : Nat) :
    ∃ t, Host.Core.run core (k + 1) s = .next t ∧ SameMachine s t ∧ t.result = some (.halted s.faultCode) := by
  induction k generalizing s with
  | zero => exact ⟨s.answerHalted, core_run_succ (step_of_halted hh) 0, State.sameMachine_answer _ _, rfl⟩
  | succ k ih =>
    obtain ⟨t, hrun, hsame, hresult⟩ := ih (s := s.answerHalted) hh
    exact ⟨t, (core_run_succ (step_of_halted hh) (k + 1)).trans hrun, (State.sameMachine_answer _ _).trans hsame,
      hresult⟩

/-- No request but reset clears HALTED: a load does not write it, and a step of a halted machine is only answered. -/
theorem serve_halted {r : HostRequest} (hh : s.halted = true) (hr : r ≠ .reset) (h : serve r s = .next t) :
    t.halted = true := by
  cases r with
  | reset => exact absurd rfl hr
  | load image =>
    obtain ⟨-, hsame⟩ := State.hostLoad_next h
    rw [hsame.record.halted, State.writeImage_eq]
    exact hh
  | step keys rand =>
    have hu : (s.withSamples (⟨keys, rand⟩ :: s.inputs) s.requests).halted = true := hh
    rw [serve_step, step_of_halted hu] at h
    cases h
    exact hu

/-! ### The three ways a step request ends -/

/-- The bytes at PC, inside memory, that decode to an instruction. -/
theorem atPc_of_decodeWord (hpc : s.pc.toNat ≤ 0xFFE) (hd : decodeWord (s.half s.pc.toNat) = some i) : AtPc s i := by
  refine ⟨hpc, ?_⟩
  rw [State.half] at hd
  simp only [decode, hd]

/-- At most one instruction lies at PC. -/
theorem AtPc.unique (hi : AtPc s i) (hj : AtPc s j) : i = j := by
  obtain ⟨-, hi⟩ := hi
  obtain ⟨-, hj⟩ := hj
  cases hi.symm.trans hj
  rfl

/-- A step request is answered as halted, or it takes a fault with the word it fetched, or the instruction at PC
commits (`40_step.md` R99). -/
theorem step_result_cases (h : step s = .next t) :
    (s.halted = true ∧ t = s.answerHalted) ∨
    (∃ c op, t = s.raise c op ∧ (0xFFE < s.pc.toNat → c = .memRange ∧ op = 0) ∧
      (s.pc.toNat ≤ 0xFFE → op = s.half s.pc.toNat)) ∨
    (∃ i, AtPc s i ∧ Committed s t (nextPc s i) (stagedDt s i) (stagedSt s i) (drawsDisplay i)) := by
  rcases step_next_cases h with hhalt | ⟨-, hpc, rfl⟩ | ⟨-, hpc, -, rfl⟩ | ⟨-, hpc, i, hd, he⟩
  · exact .inl hhalt
  · exact .inr (.inl ⟨_, _, rfl, fun _ => ⟨rfl, rfl⟩, fun hle => absurd hpc (Nat.not_lt.mpr hle)⟩)
  · exact .inr (.inl ⟨_, _, rfl, fun hlt => absurd hlt (Nat.not_lt.mpr hpc), fun _ => rfl⟩)
  · rcases exec_next_cases he with ⟨c, rfl⟩ | ⟨hn, -, rfl⟩
    · exact .inr (.inl ⟨_, _, rfl, fun hlt => absurd hlt (Nat.not_lt.mpr hpc), fun _ => encode_of_decodeWord hd⟩)
    · exact .inr (.inr ⟨i, atPc_of_decodeWord hpc hd, finish_writesOf_committed i hn⟩)

/-! ### The timers over committed steps (`60_exceptions.md` R241) -/

theorem stagedDt_eq_dt (h : ∀ x, i ≠ .ldToDt x) : stagedDt s i = s.dt := by
  cases i
  case ldToDt x => exact absurd rfl (h x)
  all_goals rfl

theorem stagedSt_eq_st (h : ∀ x, i ≠ .ldToSt x) : stagedSt s i = s.st := by
  cases i
  case ldToSt x => exact absurd rfl (h x)
  all_goals rfl

/-- `t` holds what `k` timer writebacks make of the timers of `s`, in closed form: the steps are counted from the phase
that TDIV holds. -/
structure RanDown (k : Nat) (s t : State) : Prop where
  params : t.params = s.params
  divider : t.tdiv = (s.tdiv + k) % s.params.timerPeriod
  delay : t.dt.toNat = s.dt.toNat - (s.tdiv + k) / s.params.timerPeriod
  sound : t.st.toNat = s.st.toNat - (s.tdiv + k) / s.params.timerPeriod

theorem RanDown.zero (h : s.tdiv < s.params.timerPeriod) : RanDown 0 s s where
  params := rfl
  divider := (Nat.mod_eq_of_lt h).symm
  delay := by rw [Nat.add_zero, Nat.div_eq_of_lt h, Nat.sub_zero]
  sound := by rw [Nat.add_zero, Nat.div_eq_of_lt h, Nat.sub_zero]

/-- One more writeback: a period is complete exactly when the divider comes to 0. -/
theorem RanDown.succ (h : RanDown k s u) (hp : t.params = u.params) (ht : Ticked u t u.dt u.st) :
    RanDown (k + 1) s t := by
  have hdiv : (u.tdiv + 1) % u.params.timerPeriod = (s.tdiv + (k + 1)) % s.params.timerPeriod := by
    rw [h.params, h.divider, Nat.mod_add_mod, Nat.add_assoc]
  have hperiods : (s.tdiv + (k + 1)) / s.params.timerPeriod = (s.tdiv + k) / s.params.timerPeriod +
      if (u.tdiv + 1) % u.params.timerPeriod = 0 then 1 else 0 := by
    simp only [hdiv, ← Nat.dvd_iff_mod_eq_zero]
    exact Nat.succ_div
  constructor
  case params => exact hp.trans h.params
  case divider => exact ht.divider.trans hdiv
  case delay => rw [ht.delay, h.delay, hperiods, Nat.sub_sub]
  case sound => rw [ht.sound, h.sound, hperiods, Nat.sub_sub]

/-- A committed step of an instruction that sets no timer runs the writeback on the timers as it found them. -/
theorem step_ticked (hat : AtPc s i) (hdt : ∀ x, i ≠ .ldToDt x) (hst : ∀ x, i ≠ .ldToSt x) (h : step s = .next t)
    (hok : t.result = some .ok) : Ticked s t s.dt s.st := by
  rcases step_result_cases h with ⟨-, rfl⟩ | ⟨c, op, rfl, -⟩ | ⟨j, hat', hc⟩
  · simp [State.answerHalted] at hok
  · simp at hok
  · cases hat.unique hat'
    have := hc.timers
    rwa [stagedDt_eq_dt hdt, stagedSt_eq_st hst] at this

/-- The closed form holds along every run of committed steps that set no timer. -/
theorem QuietRun.ranDown (hrun : QuietRun k s t) (h : s.tdiv < s.params.timerPeriod) : RanDown k s t := by
  induction hrun with
  | none => exact .zero h
  | one i _ hat hdt hst hstep hok ih => exact (ih h).succ (step_params hstep) (step_ticked hat hdt hst hstep hok)

/-- DT is 0 after as many periods as it held at the start (`60_exceptions.md` R240). -/
theorem RanDown.dt_eq_zero (hrun : RanDown k s t) (h : s.tdiv < s.params.timerPeriod)
    (hk : s.params.timerPeriod * s.dt.toNat ≤ k) : t.dt = 0 := by
  have hle : s.dt.toNat ≤ (s.tdiv + k) / s.params.timerPeriod := by
    rw [Nat.le_div_iff_mul_le (Nat.zero_lt_of_lt h), Nat.mul_comm]
    exact hk.trans (Nat.le_add_left _ _)
  exact BitVec.eq_of_toNat_eq (hrun.delay.trans (Nat.sub_eq_zero_of_le hle))

end

/-! ### The statements -/

/-- Settles O55: a reset starts anew with the same parameters, a load writes at 0x200 and above, and a served step is a
step of the same machine. -/
theorem hostRequestsKeepInvariant : Obligations.HostRequestsKeepInvariant := by
  intro r s t hinv h
  cases r with
  | reset =>
    cases h
    exact hinv.hostReset
  | load image =>
    obtain ⟨hlength, hsame⟩ := State.hostLoad_next h
    exact (hinv.writeImage hlength).of_sameMachine hsame
  | step keys rand =>
    rw [serve_step] at h
    exact stepKeepsInvariant _ t (hinv.of_sameMachine State.sameMachine_withSamples) h

/-- Settles O7: by induction on the number of requests, by the fields of the reset state, and by the kinds of request. -/
theorem haltedUntilReset : Obligations.HaltedUntilReset :=
  fun s hh => ⟨run_of_halted hh, ⟨s.hostReset, rfl, rfl, rfl⟩, fun _ _ => serve_halted hh⟩

/-- Settles O9: a step whose result is a fault ended in the entry of that fault, which writes the record alone. -/
theorem faultIsPrecise : Obligations.FaultIsPrecise := by
  intro s t c hh hstep hresult
  rcases step_result_cases hstep with ⟨hhalt, -⟩ | ⟨c', op, rfl, hfetch, hword⟩ | ⟨i, -, hc⟩
  · exact absurd hhalt (Bool.eq_false_iff.mp hh)
  · cases hresult
    exact ⟨rfl, rfl, rfl, hfetch, hword, rfl, rfl, rfl, rfl, rfl, rfl, rfl, rfl, rfl, rfl, rfl⟩
  · cases hc.ports.result.symm.trans hresult

/-- Settles O42: a commit runs the writeback, and neither the answer of a halted machine nor a fault writes a timer. -/
theorem timerWriteback : Obligations.TimerWriteback := by
  refine ⟨fun s t hstep => ?_, rfl⟩
  rcases step_result_cases hstep with ⟨-, rfl⟩ | ⟨c, op, rfl, -⟩ | ⟨i, hat, hc⟩
  · exact ⟨nofun, fun _ => ⟨rfl, rfl, rfl⟩⟩
  · exact ⟨nofun, fun _ => ⟨rfl, rfl, rfl⟩⟩
  · exact ⟨fun _ => ⟨i, hat, hc.timers⟩, fun hne => absurd hc.ports.result hne⟩

/-- Settles O43: by induction on the run, through the closed form of `RanDown`. -/
theorem timersRunDown : Obligations.TimersRunDown := by
  intro k s t h hrun
  have hdown := hrun.ranDown h
  exact ⟨hdown.divider, hdown.delay, hdown.sound, hdown.dt_eq_zero h⟩

end Sys2Proof.Machine
end

section
/-! PROOFS of the statements on reset, boot and program load (`70_reset_and_hazards.md`), and of the statement that the
source's wordings of the arithmetic flags (`43_alu.md`) agree with the flags that the instructions write. -/

namespace Sys2Proof.Machine

section

variable {s t : State} {p : Params} {image : List Byte} {x : RegIdx} {r a k : Nat} {c : Prop}

/-! ### The reset state (`10_state.md` R41) -/

/-- With no cell written, memory reads as reset left it. -/
@[simp] theorem State.resetWith_byte (p : Params) (a : Nat) : (State.resetWith p).byte a = resetByte p a := rfl

/-- Below the font, the stack's bytes are 0 at reset. -/
theorem resetByte_below_font (p : Params) (h : a < fontBase) : resetByte p a = 0 :=
  if_neg fun ⟨hlo, _⟩ => absurd hlo (Nat.not_le.mpr h)

/-- Above the font, the reserved region and all of program memory are 0 at reset. -/
theorem resetByte_above_font (p : Params) (h : fontEnd ≤ a) : resetByte p a = 0 :=
  if_neg fun ⟨_, hhi⟩ => absurd h (Nat.not_le.mpr hhi)

theorem atReset_resetWith (p : Params) : AtReset p (State.resetWith p) := by
  constructor
  case regs => exact fun x => Vector.getElem_replicate x.isLt
  case rows => exact fun r _ => State.row_clearRows (s := State.resetWith p) r
  case stackBytes => exact fun a ha => resetByte_below_font p ha
  case fontBytes =>
    intro k
    rw [State.resetWith_byte, resetByte_font p k.isLt, Vector.getElem?_eq_getElem k.isLt, Option.getD_some]
  case otherBytes => exact fun a ha => resetByte_above_font p ha
  all_goals rfl

/-- What R41 and R260 say of a state does not speak of the host's samples and the count of requests. -/
theorem AtReset.withSamples (h : AtReset p s) (samples : List StepInput) (m : Nat) :
    AtReset p (s.withSamples samples m) := { h with }

/-- A reset of any machine is the reset state with the host's samples and the count of requests kept (log 16). -/
theorem State.hostReset_atReset (s : State) : AtReset s.params s.hostReset :=
  (atReset_resetWith s.params).withSamples s.inputs s.requests

/-! ### Program load (`70_reset_and_hazards.md` R263) -/

theorem State.hostLoad_of_fits (hopen : s.loadOpen = true) (hlength : image.length ≤ maxImage) :
    s.hostLoad image = .next { s.writeImage programBase image with loadOpen := false, drawOut := false } := by
  rw [State.hostLoad, if_pos hopen, if_pos hlength]

theorem State.hostLoad_of_tooLong (hopen : s.loadOpen = true) (hlength : maxImage < image.length) :
    s.hostLoad image = .refused .imageTooLong := by
  rw [State.hostLoad, if_pos hopen, if_neg (Nat.not_le.mpr hlength)]

theorem State.hostLoad_of_closed (hclosed : s.loadOpen = false) : s.hostLoad image = .refused .loadClosed := by
  rw [State.hostLoad, if_neg (Bool.eq_false_iff.mp hclosed)]

/-- A load that answers changes memory and nothing else of the machine. -/
theorem State.hostLoad_changes_memory_alone (h : s.hostLoad image = .next t) : SameMachine { s with mem := t.mem } t := by
  obtain ⟨-, hsame⟩ := State.hostLoad_next h
  have hmem : t.mem = (s.writeImage programBase image).mem := hsame.mem
  rwa [State.writeImage_eq, ← hmem] at hsame

theorem State.writeImage_byte_inside (h : k < image.length) : (s.writeImage a image).byte (a + k) = image[k]?.getD 0 := by
  rw [State.writeImage_byte, if_pos ⟨Nat.le_add_right a k, Nat.add_lt_add_left h a⟩, Nat.add_sub_cancel_left]

theorem State.writeImage_byte_outside {z : Nat} (h : z < a ∨ a + image.length ≤ z) :
    (s.writeImage a image).byte z = s.byte z := by
  rw [State.writeImage_byte, if_neg (by omega)]

/-! ### The wordings of the flags (`43_alu.md` R147, R148, R150) -/

/-- The wrapped sum is less than an operand exactly when there is a carry. -/
theorem wrapped_add_lt_left_iff (a b : Byte) : (a.toNat + b.toNat) % 256 < a.toNat ↔ 0xFF < a.toNat + b.toNat := by
  have ha := a.isLt
  have hb := b.isLt
  omega

/-- The wrapped difference is at most the minuend exactly when there is no borrow. -/
theorem wrapped_sub_le_iff (a b : Byte) : (a.toNat + 256 - b.toNat) % 256 ≤ a.toNat ↔ b.toNat ≤ a.toNat := by
  have ha := a.isLt
  have hb := b.isLt
  omega

/-- VF is 1 exactly under the condition of the flag: it holds 1 or 0. -/
theorem WritesRegFlag.flag_iff (h : WritesRegFlag s t x r c) : t.reg flagReg = 1 ↔ c := by
  refine ⟨fun hone => ?_, h.flagSet⟩
  by_contra hc
  exact absurd (hone.symm.trans (h.flagClear hc)) (by decide)

/-- A completed instruction that writes a result and a flag does so in sequence, inside memory. -/
theorem exec_ok_writesRegFlag {i : Instr} {b : Byte} {flag : Bool}
    (hi : exec i s = .next (s.writeRegFlag (encode i) x b flag)) (hseq : nextPc s i = s.pc.toNat + 2)
    (h : exec i s = .next t) (hok : t.result = some .ok) (hb : b.toNat = r) (hflag : flag = true ↔ c) :
    WritesRegFlag s t x r c := by
  obtain ⟨hn, -⟩ := exec_ok h hok
  cases hi.symm.trans h
  exact State.writeRegFlag_writesRegFlag x (hseq ▸ hn) hb hflag

end

/-! ### The statements -/

/-- Settles O58: a load writes its image in the open window alone, every step closes the window, and a reset opens it. -/
theorem programLoad : Obligations.ProgramLoad := by
  intro s image
  refine ⟨fun hopen hlength => ?_, State.hostLoad_of_tooLong, State.hostLoad_of_closed, fun t hstep => ?_,
    ⟨s.hostReset, rfl, rfl⟩⟩
  · have hload := State.hostLoad_of_fits hopen hlength
    exact ⟨_, hload, fun k hk => State.writeImage_byte_inside hk, fun a ha => State.writeImage_byte_outside ha,
      State.hostLoad_changes_memory_alone hload, rfl⟩
  · obtain ⟨-, -, hclosed⟩ := step_bookkeeping hstep
    exact hclosed

/-- Settles O1: the reset state of any parameters holds the values of R41, and a reset of any machine leads to it. -/
theorem resetState : Obligations.ResetState :=
  ⟨atReset_resetWith defaultParams, fun s => ⟨s.hostReset, rfl, s.hostReset_atReset⟩⟩

/-- Settles O3: at reset the two bytes at 0x200 are 0, and no row of the opcode map covers 0x0000. -/
theorem firstStepWithNothingLoaded : Obligations.FirstStepWithNothingLoaded := by
  intro p
  have hpc : (State.resetWith p).pc.toNat = 0x200 := rfl
  have hfetch : (State.resetWith p).fetch = some 0x0000 := by
    rw [State.fetch_eq_some (by omega), hpc, (atReset_resetWith p).otherBytes _ (by decide),
      (atReset_resetWith p).otherBytes _ (by decide)]
    rfl
  exact step_of_decodeWord_eq_none rfl hfetch (by decide)

/-- Settles O29: VF is the carry or the not-borrow, and `V[x]` holds the wrapped result when it is not VF. -/
theorem flagWordingsAgree : Obligations.FlagWordingsAgree := by
  intro s t x y hx hok
  refine ⟨fun h => ?add, fun h => ?sub, fun h => ?subn⟩
  case add =>
    have hw := exec_ok_writesRegFlag rfl rfl h hok (BitVec.toNat_add _ _) carry_iff
    rw [hw.flag_iff, hw.dest hx]
    refine ⟨(wrapped_add_lt_left_iff _ _).symm, ?_⟩
    rw [Nat.add_comm]
    exact (wrapped_add_lt_left_iff _ _).symm
  case sub | subn =>
    have hw := exec_ok_writesRegFlag rfl rfl h hok (sub_toNat_mod _ _) notBorrow_iff
    rw [hw.flag_iff, hw.dest hx]
    exact (wrapped_sub_le_iff _ _).symm

end Sys2Proof.Machine
end
